-- ==== Sys2Proof/Word.lean ====
section
/-! DEFINITION. The words and numbers of the block (spec/00_scope.md R8, R9, R10; spec/10_state.md R28, R34). -/

namespace Sys2Proof

/-- One instruction word, one per program-memory slot (R70). -/
abbrev Word := BitVec 32

/-- A slot number or the program counter, 12 bits unsigned (R28). -/
abbrev Slot := BitVec 12

/-- One operand field of an instruction word, 12 bits (R71). -/
abbrev Field := BitVec 12

/-- The length of the loaded program, 13 bits unsigned (R34). -/
abbrev ProgLen := BitVec 13

/-- The range of every register value, literal, operand and result (R8, R12). -/
abbrev InRange (v : Int) : Prop := -999 ≤ v ∧ v ≤ 999

/-- The most slots a program memory may have, the limit of the 12-bit pc (R9). -/
abbrev maxSlots : Nat := 4096

end Sys2Proof
end

