-- ==== Sys2Proof/Syntax.lean ====
section
/-! DEFINITION. The decoded instructions: one constructor per row of spec/opcode_table.json
(spec/00_scope.md R2; spec/30_encoding.md R72, R74, R75, R76). -/

namespace Sys2Proof

/-- The four pin registers (R22). -/
inductive Pin where
  | p0 | p1 | x0 | x1
deriving DecidableEq, Repr

/-- The registers an instruction can name (R23): the core registers and the pins. -/
inductive Reg where
  | acc | dat | null
  | pin (p : Pin)
deriving DecidableEq, Repr

/-- An operand of class `V`: a literal or a register (R27, R75). -/
inductive Operand where
  | lit (v : Int)
  | reg (r : Reg)
deriving DecidableEq, Repr

/-- The conditional qualifier (R72). -/
inductive Cond where
  | regular | plus | minus
deriving DecidableEq, Repr

/-- The fifteen instructions (R2), each carrying its qualifier. The operands stand in the order of
the source's constructors: field A, then field B (R71). -/
inductive Instr where
  | nop (c : Cond)
  | mov (c : Cond) (src : Operand) (dst : Reg)
  | jmp (c : Cond) (target : Slot)
  | slp (c : Cond) (time : Operand)
  | slx (c : Cond) (pin : Pin)
  | add (c : Cond) (operand : Operand)
  | sub (c : Cond) (operand : Operand)
  | mul (c : Cond) (operand : Operand)
  | not (c : Cond)
  | dgt (c : Cond) (index : Operand)
  | dst (c : Cond) (index value : Operand)
  | teq (c : Cond) (a b : Operand)
  | tgt (c : Cond) (a b : Operand)
  | tlt (c : Cond) (a b : Operand)
  | tcp (c : Cond) (a b : Operand)
deriving DecidableEq, Repr

/-- The qualifier of an instruction (R72). -/
def Instr.cond : Instr → Cond
  | .nop c => c
  | .mov c _ _ => c
  | .jmp c _ => c
  | .slp c _ => c
  | .slx c _ => c
  | .add c _ => c
  | .sub c _ => c
  | .mul c _ => c
  | .not c => c
  | .dgt c _ => c
  | .dst c _ _ => c
  | .teq c _ _ => c
  | .tgt c _ _ => c
  | .tlt c _ _ => c
  | .tcp c _ _ => c

end Sys2Proof
end

