-- ==== Sys2Proof/Config.lean ====
section
/-! DEFINITION. The free values: what the spec leaves open and nothing in the model fixes.
PROG_CAPACITY, PIN_PROVIDER and PIN_READ_CONSUMES (spec/00_scope.md R9) are plain data in State. -/

namespace Sys2Proof

/-- The word a program-memory slot holds at power-on: unspecified (R231, I12); log 3. -/
opaque Config.powerOnWord : Nat → Word

/-- What the external pin provider answers to its `n`-th read, of pin `p`, when no answer for that pin
is written in the state: some integer, or `none` for DataNotAvailable (R55, I8); log 8. -/
opaque Config.pinAnswer : Nat → Pin → Option Int

end Sys2Proof
end

