-- ==== Sys2Proof/WellFormed.lean ====
section
/-! DEFINITION. Which decoded instructions an instruction word can stand for: every literal lies in
[-999, 999] (spec/30_encoding.md R73, R78 item (5)), and a jump target lies below PROG_LEN (R80).
The other limits of R75 (a destination is a register, a `PIN` operand is a pin) are in the types. -/

namespace Sys2Proof

/-- A literal must be a datum (R73). -/
def Operand.wf : Operand → Bool
  | .lit v => decide (InRange v)
  | .reg _ => true

/-- Every literal of the instruction is a datum. -/
def Instr.wf : Instr → Bool
  | .nop _ => true
  | .mov _ src _ => src.wf
  | .jmp _ _ => true
  | .slp _ time => time.wf
  | .slx _ _ => true
  | .add _ operand => operand.wf
  | .sub _ operand => operand.wf
  | .mul _ operand => operand.wf
  | .not _ => true
  | .dgt _ index => index.wf
  | .dst _ index value => index.wf && value.wf
  | .teq _ a b => a.wf && b.wf
  | .tgt _ a b => a.wf && b.wf
  | .tlt _ a b => a.wf && b.wf
  | .tcp _ a b => a.wf && b.wf

/-- A jump target is legal only below the program length at the time of decode (R80). -/
def Instr.targetOk (n : ProgLen) : Instr → Bool
  | .nop _ => true
  | .mov _ _ _ => true
  | .jmp _ t => decide (t.toNat < n.toNat)
  | .slp _ _ => true
  | .slx _ _ => true
  | .add _ _ => true
  | .sub _ _ => true
  | .mul _ _ => true
  | .not _ => true
  | .dgt _ _ => true
  | .dst _ _ _ => true
  | .teq _ _ _ => true
  | .tgt _ _ _ => true
  | .tlt _ _ _ => true
  | .tcp _ _ _ => true

end Sys2Proof
end

