-- ==== Sys2Proof/Decode.lean ====
section
/-! DEFINITION. The decoder, total on every word, and the encoder (spec/30_encoding.md R70 to R80). -/

namespace Sys2Proof

/-- Why a word is illegal: the ten items of R78. -/
inductive Reject where
  /-- Item (1): `w[31:30] != 0`. -/
  | reservedBits
  /-- Item (2): opcode 15. -/
  | reservedOpcode
  /-- Item (3): `cond = 0b11`. -/
  | reservedCond
  /-- Item (4): a `Z` field that is not zero. -/
  | unusedFieldSet
  /-- Item (5): a literal outside [-999, 999]. -/
  | literalRange
  /-- Item (6): a register form with `o[10:3] != 0`. -/
  | registerPadding
  /-- Item (7): register code `0b011`. -/
  | reservedRegister
  /-- Item (8): a literal in a `D` field. -/
  | literalDestination
  /-- Item (9): a `PIN` field that is not the register form of a pin. -/
  | notAPin
  /-- Item (10): a `JMP` target at or above PROG_LEN. -/
  | jumpTarget
deriving DecidableEq, Repr

/-! The fields of the word (R71). -/

def opField (w : Word) : BitVec 4 := w.extractLsb' 0 4

def condField (w : Word) : BitVec 2 := w.extractLsb' 4 2

def aField (w : Word) : Field := w.extractLsb' 6 12

def bField (w : Word) : Field := w.extractLsb' 18 12

def resField (w : Word) : BitVec 2 := w.extractLsb' 30 2

/-! The parts of an operand field (R73, R74). -/

/-- `o[11]`: set for the register form. -/
def formBit (o : Field) : Bool := o.getLsbD 11

/-- `o[10:0]`, the literal. -/
def literalBits (o : Field) : BitVec 11 := o.extractLsb' 0 11

/-- `o[10:3]`, zero in a register form. -/
def paddingBits (o : Field) : BitVec 8 := o.extractLsb' 3 8

/-- `o[2:0]`, the register code. -/
def registerCode (o : Field) : BitVec 3 := o.extractLsb' 0 3

/-- The qualifier of a `cond` field (R72). -/
def decodeCond (c : BitVec 2) : Except Reject Cond :=
  match c.toNat with
  | 0 => .ok .regular
  | 1 => .ok .plus
  | 2 => .ok .minus
  | _ => .error .reservedCond

/-- The register of a 3-bit register code (R74). -/
def decodeRegisterCode (c : BitVec 3) : Except Reject Reg :=
  match c.toNat with
  | 0 => .ok .acc
  | 1 => .ok .dat
  | 2 => .ok .null
  | 3 => .error .reservedRegister
  | 4 => .ok (.pin .p0)
  | 5 => .ok (.pin .p1)
  | 6 => .ok (.pin .x0)
  | _ => .ok (.pin .x1)

/-- `reg(o)` of R77. -/
def decodeRegister (o : Field) : Except Reject Reg :=
  if paddingBits o = 0 then decodeRegisterCode (registerCode o) else .error .registerPadding

/-- `lit(o)` of R77. -/
def decodeLiteral (o : Field) : Except Reject Int :=
  let v := (literalBits o).toInt
  if InRange v then .ok v else .error .literalRange

/-- Class `V` of R75. -/
def decodeValue (o : Field) : Except Reject Operand :=
  if formBit o then (decodeRegister o).map .reg else (decodeLiteral o).map .lit

/-- Class `D` of R75. -/
def decodeDestination (o : Field) : Except Reject Reg :=
  if formBit o then decodeRegister o else .error .literalDestination

/-- The pin of a register: the core registers name none. -/
def pinOf : Reg → Except Reject Pin
  | .pin p => .ok p
  | .acc => .error .notAPin
  | .dat => .error .notAPin
  | .null => .error .notAPin

/-- Class `PIN` of R75: every other value is illegal. -/
def decodePin (o : Field) : Except Reject Pin :=
  if formBit o then
    match decodeRegister o with
    | .ok r => pinOf r
    | .error _ => .error .notAPin
  else .error .notAPin

/-- Class `Z` of R75. -/
def decodeUnused (o : Field) : Except Reject Unit :=
  if o = 0 then .ok () else .error .unusedFieldSet

/-- One value operand in A, nothing in B. -/
def decodeV (mk : Operand → Instr) (a b : Field) : Except Reject Instr := do
  let x ← decodeValue a
  decodeUnused b
  return mk x

/-- Value operands in A and B. -/
def decodeVV (mk : Operand → Operand → Instr) (a b : Field) : Except Reject Instr := do
  let x ← decodeValue a
  let y ← decodeValue b
  return mk x y

/-- No operand. -/
def decodeZZ (i : Instr) (a b : Field) : Except Reject Instr := do
  decodeUnused a
  decodeUnused b
  return i

/-- `MOV`: a value in A, a destination in B. -/
def decodeVD (mk : Operand → Reg → Instr) (a b : Field) : Except Reject Instr := do
  let x ← decodeValue a
  let r ← decodeDestination b
  return mk x r

/-- `JMP`: a slot number in A, nothing in B. -/
def decodeT (mk : Slot → Instr) (a b : Field) : Except Reject Instr := do
  decodeUnused b
  return mk a

/-- `SLX`: a pin in A, nothing in B. -/
def decodeP (mk : Pin → Instr) (a b : Field) : Except Reject Instr := do
  let p ← decodePin a
  decodeUnused b
  return mk p

/-- The opcode map (R76). -/
def decodeOp (op : BitVec 4) (c : Cond) (a b : Field) : Except Reject Instr :=
  match op.toNat with
  | 0 => decodeZZ (.nop c) a b
  | 1 => decodeVD (.mov c) a b
  | 2 => decodeT (.jmp c) a b
  | 3 => decodeV (.slp c) a b
  | 4 => decodeP (.slx c) a b
  | 5 => decodeV (.add c) a b
  | 6 => decodeV (.sub c) a b
  | 7 => decodeV (.mul c) a b
  | 8 => decodeZZ (.not c) a b
  | 9 => decodeV (.dgt c) a b
  | 10 => decodeVV (.dst c) a b
  | 11 => decodeVV (.teq c) a b
  | 12 => decodeVV (.tgt c) a b
  | 13 => decodeVV (.tlt c) a b
  | 14 => decodeVV (.tcp c) a b
  | _ => .error .reservedOpcode

/-- The instruction of a word, but for the one check that reads PROG_LEN. -/
def decodeFields (w : Word) : Except Reject Instr :=
  if resField w ≠ 0 then .error .reservedBits
  else if opField w = 15 then .error .reservedOpcode
  else do
    let c ← decodeCond (condField w)
    decodeOp (opField w) c (aField w) (bField w)

/-- `decode(w, PROG_LEN)` of R77: the target check comes last, so that `JMP_TARGET` is reported only
where it is the word's only defect (R200, R203). -/
def decode (w : Word) (n : ProgLen) : Except Reject Instr :=
  match decodeFields w with
  | .ok i => if i.targetOk n then .ok i else .error .jumpTarget
  | .error e => .error e

/-! The encoder, from the same tables. -/

def encodeCond : Cond → BitVec 2
  | .regular => 0
  | .plus => 1
  | .minus => 2

/-- The register codes of R74. -/
def encodeRegisterCode : Reg → BitVec 3
  | .acc => 0
  | .dat => 1
  | .null => 2
  | .pin .p0 => 4
  | .pin .p1 => 5
  | .pin .x0 => 6
  | .pin .x1 => 7

/-- The register form of an operand field (R74). -/
def encodeRegister (r : Reg) : Field := 1#1 ++ 0#8 ++ encodeRegisterCode r

/-- The literal form of an operand field (R73). -/
def encodeLiteral (v : Int) : Field := 0#1 ++ BitVec.ofInt 11 v

def encodeOperand : Operand → Field
  | .lit v => encodeLiteral v
  | .reg r => encodeRegister r

/-- The word with the given fields and its reserved bits zero (R71). -/
def wordOf (op : BitVec 4) (c : Cond) (a b : Field) : Word := 0#2 ++ b ++ a ++ encodeCond c ++ op

/-- The word of an instruction (R71 to R76). -/
def encode : Instr → Word
  | .nop c => wordOf 0 c 0 0
  | .mov c src d => wordOf 1 c (encodeOperand src) (encodeRegister d)
  | .jmp c t => wordOf 2 c t 0
  | .slp c time => wordOf 3 c (encodeOperand time) 0
  | .slx c p => wordOf 4 c (encodeRegister (.pin p)) 0
  | .add c x => wordOf 5 c (encodeOperand x) 0
  | .sub c x => wordOf 6 c (encodeOperand x) 0
  | .mul c x => wordOf 7 c (encodeOperand x) 0
  | .not c => wordOf 8 c 0 0
  | .dgt c index => wordOf 9 c (encodeOperand index) 0
  | .dst c index value => wordOf 10 c (encodeOperand index) (encodeOperand value)
  | .teq c a b => wordOf 11 c (encodeOperand a) (encodeOperand b)
  | .tgt c a b => wordOf 12 c (encodeOperand a) (encodeOperand b)
  | .tlt c a b => wordOf 13 c (encodeOperand a) (encodeOperand b)
  | .tcp c a b => wordOf 14 c (encodeOperand a) (encodeOperand b)

/-! Words as bytes: the host's transport, little-endian (spec/20_memory.md R53). -/

/-- The four bytes of a word, byte 0 first. -/
def wordBytes (w : Word) : List (BitVec 8) :=
  [w.extractLsb' 0 8, w.extractLsb' 8 8, w.extractLsb' 16 8, w.extractLsb' 24 8]

/-- The word of four bytes, byte 0 first; any other number of bytes is no word (R70). -/
def wordOfBytes : List (BitVec 8) → Option Word
  | [b0, b1, b2, b3] => some (b3 ++ b2 ++ b1 ++ b0)
  | _ => none

/-- The instruction in the first four bytes, with the bytes that follow it; fewer than four bytes hold
no instruction, and an illegal word is rejected by its reason. -/
def decodeBytes (n : ProgLen) : List (BitVec 8) → Option (Except Reject Instr × List (BitVec 8))
  | b0 :: b1 :: b2 :: b3 :: rest => some (decode (b3 ++ b2 ++ b1 ++ b0) n, rest)
  | _ => none

/-- The PROG_LEN that makes every 12-bit target legal (log 17). -/
def fullProgLen : ProgLen := 4096

/-- What the decoder reads from an instruction whose bits are `w`, numbered as
spec/opcode_table.json numbers them, stored as the four little-endian bytes of a slot. -/
def decodeTableWord (nbits w : Nat) : Option Instr :=
  match decodeBytes fullProgLen (wordBytes (BitVec.ofNat 32 (w % 2 ^ nbits))) with
  | some (.ok i, _) => some i
  | some (.error _, _) => none
  | none => none

end Sys2Proof
end

