-- ==== Sys2Proof/Machine/State.lean ====
section
/-! DEFINITION. The state of the block as plain data (spec/10_state.md), with what the spec makes a
parameter of the step (R39: the provider, the host's choices) held beside it as data of the model's
own, and the state after power-on. -/

namespace Sys2Proof.Machine

/-- The fault codes that can be recorded (R200, I14); no fault is `none`. -/
inductive FaultCode where
  /-- 1: a fetch with PROG_LEN = 0. -/
  | emptyProgram
  /-- 2: a fetch with pc ≥ PROG_LEN. -/
  | pcOutOfRange
  /-- 3: a word that fails decode by R78 items (1) to (9). -/
  | illegalInstruction
  /-- 4: a `JMP` word whose only defect is its target. -/
  | jmpTarget
deriving DecidableEq, Repr

/-- The status register (R31). -/
inductive Status where
  | notBlocked
  | blockedOnTime (d : Int)
  | blockedOnInput (p : Pin)
  | faulted
deriving DecidableEq, Repr

/-- A provider's answer to a pin read (R55). -/
inductive PinAnswer where
  | value (v : Int)
  | dataNotAvailable
deriving DecidableEq, Repr

/-- An event at the pin interface (R60, R61). -/
inductive PinEvent where
  | read (p : Pin) (answer : PinAnswer)
  | write (p : Pin) (v : Int)
deriving DecidableEq, Repr

/-- PIN_PROVIDER (R9): the stub of R57, or a provider outside the block. -/
inductive Provider where
  | stub
  | external
deriving DecidableEq, Repr

/-- The pin interface and the provider behind it (R55 to R59, R39; log 8, 9, 11). -/
structure PinPort where
  /-- PIN_PROVIDER. -/
  provider : Provider
  /-- The external provider's coming answers, each pin's own in order; a pin with none left answers
  the free value `Config.pinAnswer`. -/
  script : List (Pin × PinAnswer)
  /-- PIN_READ_CONSUMES: whether a read whose value a retry discards is consumed (R59). -/
  readConsumes : Bool
  /-- How many reads the external provider has answered: the index of its next free answer. -/
  reads : Nat
  /-- The events so far, oldest first. -/
  log : List PinEvent
deriving DecidableEq, Repr

/-- The host-visible registers H0 to H6 (R35). -/
inductive HostReg where
  | status | fault | progLen | pc | acc | dat | flags
deriving DecidableEq, Repr

/-- One turn of the host: nothing (the core steps), or a command of R36. -/
inductive HostTurn where
  | wait
  | reset
  | loadWord (slot : Nat) (w : Word)
  | setProgLen (n : Nat)
  | run
  | execDirect (w : Word)
  | readReg (h : HostReg)
deriving DecidableEq, Repr

/-- Program memory: how many slots there are (PROG_CAPACITY, log 1), and the words written so far, by
rising slot number (R51; log 2). -/
structure Memory where
  slots : Nat
  cells : List (Nat × Word)
deriving DecidableEq, Repr

/-- Every piece of state the spec gives the machine (spec/10_state.md R20 to R34, R38), then the
model's own input and output (R39). -/
structure State where
  /-- The program counter (R28). -/
  pc : Slot
  /-- The fetch index latch (R29). -/
  ipc : Slot
  /-- `ACC` (R21). -/
  acc : Int
  /-- `DAT` (R21). -/
  dat : Int
  /-- `plus_allowed` (R30). -/
  plusAllowed : Bool
  /-- `minus_allowed` (R30). -/
  minusAllowed : Bool
  /-- The blocking result of the last instruction (R31). -/
  status : Status
  /-- The run latch (R32). -/
  active : Bool
  /-- `fault_code` (R33). -/
  faultCode : Option FaultCode
  /-- `fault_pc` (R33). -/
  faultPc : Slot
  /-- `PROG_LEN` (R34). -/
  progLen : ProgLen
  /-- Program memory (R51). -/
  mem : Memory
  /-- The pin interface (R55). -/
  pins : PinPort
  /-- The host's coming turns (R36, I10; log 5). -/
  host : List HostTurn
  /-- What the last `ReadReg` returned (R36; log 11). -/
  reply : Option (BitVec 32)
deriving DecidableEq, Repr

/-- Why the machine stops with a fault. The spec's own faults (R200) are next states, not these. -/
inductive Fault where
  /-- Raised by a fetch or by the host's `LoadWord` at a slot at or above PROG_CAPACITY, which does not
  exist (R51). Safe: the model stops where the spec gives no effect (log 7). -/
  | noSuchSlot
deriving DecidableEq, Repr

/-- Why an instruction has no meaning. -/
inductive Refusal where
  /-- Raised by `exec` for an instruction that has no meaning yet; no arm does. Safe. -/
  | notModelled (mnemonic : String)
deriving DecidableEq, Repr

/-- The pin port at power-on: the stub is the default provider (R57); log 8, 9, 11. -/
def PinPort.initial : PinPort :=
  { provider := .stub, script := [], readConsumes := true, reads := 0, log := [] }

/-- Program memory at power-on: no word written (R231); log 1, 3. -/
def Memory.initial : Memory := { slots := maxSlots, cells := [] }

/-- The machine after power-on and reset (R38, R230, R231). -/
def State.reset : State :=
  { pc := 0, ipc := 0, acc := 0, dat := 0, plusAllowed := true, minusAllowed := true,
    status := .notBlocked, active := false, faultCode := none, faultPc := 0, progLen := 0,
    mem := Memory.initial, pins := PinPort.initial, host := [], reply := none }

end Sys2Proof.Machine
end

