-- ==== Sys2Proof/Machine/Alu.lean ====
section
/-! DEFINITION. The bounded-range saturating ALU (spec/40_bounded_integer.md): functions of their
inputs alone, over the mathematical integers (R10). -/

namespace Sys2Proof.Machine

/-- Saturation (R100). -/
def sat (x : Int) : Int := if x < -999 then -999 else if 999 < x then 999 else x

/-- R102. -/
def aluAdd (a b : Int) : Int := sat (a + b)

/-- R103. -/
def aluSub (a b : Int) : Int := sat (a - b)

/-- R104. -/
def aluMul (a b : Int) : Int := sat (a * b)

/-- The logical not of `NOT` (R143). -/
def aluNot (a : Int) : Int := if a = 0 then 100 else 0

/-- `m <- m div 10`, `i` times (R108). -/
def dropDigits : Nat → Nat → Nat
  | 0, m => m
  | i + 1, m => dropDigits i (m / 10)

/-- `digit_at(v, i)` (R108). -/
def digitAt (v i : Int) : Int :=
  if i < 0 then 0 else ((dropDigits i.toNat v.natAbs % 10 : Nat) : Int)

/-- A digit brought into 0..9 (R109, D20 (b)). -/
def clampDigit (d : Int) : Int := min 9 (max 0 d)

/-- The sign that `set_digit_at` keeps: 0 counts as positive (R109, D20 (c)). -/
def signOf (v : Int) : Int := if v < 0 then -1 else 1

/-- The place value `10^i` of a digit. -/
def placeValue (i : Int) : Int := ((Nat.pow 10 i.toNat : Nat) : Int)

/-- The magnitude with its digit at `i ≥ 0` replaced by `d` in 0..9 (R109). -/
def replaceDigit (m i d : Int) : Int :=
  if i ≤ 2 then m - digitAt m i * placeValue i + d * placeValue i else m + d * placeValue i

/-- `set_digit_at(v, i, d)` (R109). -/
def setDigitAt (v i d : Int) : Int :=
  if i < 0 then v else sat (signOf v * replaceDigit (v.natAbs : Int) i (clampDigit d))

end Sys2Proof.Machine
end

