-- ==== Sys2Proof/Machine/Ops.lean ====
section
/-! DEFINITION. The named operations over program memory, the pins, the status register and the fault
registers (spec/20_memory.md R51 to R59; spec/44_fetch_execute.md R183 to R186; spec/60_exceptions.md
R204). -/

namespace Sys2Proof.Machine

/-! Program memory. -/

/-- The word written at slot `i`, if any. -/
def findCell : List (Nat × Word) → Nat → Option Word
  | [], _ => none
  | (k, w) :: rest, i => if k = i then some w else findCell rest i

/-- The cells with `w` at slot `i`, by rising slot number. -/
def insertCell (i : Nat) (w : Word) : List (Nat × Word) → List (Nat × Word)
  | [] => [(i, w)]
  | (k, x) :: rest =>
    if i < k then (i, w) :: (k, x) :: rest
    else if i = k then (i, w) :: rest
    else (k, x) :: insertCell i w rest

/-- The slot numbers rise strictly, and every one is at least `lo`. -/
def risingFrom (lo : Nat) : List (Nat × Word) → Bool
  | [] => true
  | (k, _) :: rest => decide (lo ≤ k) && risingFrom (k + 1) rest

/-- Every slot number is below `n`. -/
def allBelow (n : Nat) : List (Nat × Word) → Bool
  | [] => true
  | (k, _) :: rest => decide (k < n) && allBelow n rest

/-- The canonical form: 1 to 4096 slots (R9), the written cells by strictly rising slot number, each a
slot that exists. An unlisted slot is one nothing has written, so no entry equals it (log 2). -/
def Memory.wf (m : Memory) : Bool :=
  decide (1 ≤ m.slots) && decide (m.slots ≤ maxSlots) && risingFrom 0 m.cells && allBelow m.slots m.cells

/-- The word of slot `i`: the one written, else the unspecified power-on word (R231, I12; log 3). -/
def Memory.word (m : Memory) (i : Nat) : Word := (findCell m.cells i).getD (Config.powerOnWord i)

/-- `MemRead(i, 1)` (R51): nothing where the slot does not exist. -/
def Memory.read (m : Memory) (i : Nat) : Option Word := if i < m.slots then some (m.word i) else none

/-- `MemWrite(i, 1, w)` at a slot that exists (R51). -/
def Memory.write (m : Memory) (i : Nat) (w : Word) : Memory :=
  { m with cells := insertCell i w m.cells }

/-! The pin interface. -/

/-- The next scripted answer for pin `p`. -/
def scriptedAnswer (p : Pin) : List (Pin × PinAnswer) → Option PinAnswer
  | [] => none
  | (q, a) :: rest => if q = p then some a else scriptedAnswer p rest

/-- The script without its next answer for pin `p`. -/
def dropAnswer (p : Pin) : List (Pin × PinAnswer) → List (Pin × PinAnswer)
  | [] => []
  | (q, a) :: rest => if q = p then rest else (q, a) :: dropAnswer p rest

/-- The free answer of the external provider (I8; log 8). -/
def freeAnswer (n : Nat) (p : Pin) : PinAnswer :=
  match Config.pinAnswer n p with
  | some v => .value v
  | none => .dataNotAvailable

/-- What the provider answers to the next read of pin `p`: the stub always `Value(0)` (R57). -/
def PinPort.answer (q : PinPort) (p : Pin) : PinAnswer :=
  match q.provider with
  | .stub => .value 0
  | .external =>
    match scriptedAnswer p q.script with
    | some a => a
    | none => freeAnswer q.reads p

/-- The port after a read of pin `p`: one indivisible event (R60). -/
def PinPort.afterRead (q : PinPort) (p : Pin) : PinPort :=
  match q.provider with
  | .stub => { q with log := q.log ++ [.read p (q.answer p)] }
  | .external =>
    { q with script := dropAnswer p q.script, reads := q.reads + 1,
             log := q.log ++ [.read p (q.answer p)] }

/-- The port after a write of `v` to pin `p`, which always completes (R56); the stub discards it (R57). -/
def PinPort.afterWrite (q : PinPort) (p : Pin) (v : Int) : PinPort :=
  { q with log := q.log ++ [.write p v] }

/-- The port after the core discarded the answer `a` of pin `p`: where the provider does not count the
read as consumed, `a` is the next answer again (R59, PIN_READ_CONSUMES; log 9). -/
def PinPort.giveBack (q : PinPort) (p : Pin) (a : PinAnswer) : PinPort :=
  if q.readConsumes then q else { q with script := (p, a) :: q.script }

/-- The outcome of resolving an operand (R27): a value, or no data from pin `p`. -/
inductive Resolved where
  | value (v : Int)
  | unavailable (p : Pin)
deriving DecidableEq, Repr

/-- What the core makes of an answer: it applies `sat` to a value (R55). -/
def resolvedOf (p : Pin) : PinAnswer → Resolved
  | .value v => .value (sat v)
  | .dataNotAvailable => .unavailable p

/-- `PinRead(p)` (R55). -/
def pinRead (p : Pin) (s : State) : Resolved × State :=
  (resolvedOf p (s.pins.answer p), { s with pins := s.pins.afterRead p })

/-- `PinWrite(p, v)` (R56). -/
def pinWrite (p : Pin) (v : Int) (s : State) : State := { s with pins := s.pins.afterWrite p v }

/-! The ends of an instruction. -/

/-- `block(s)` with a blocking result: record it and drop the run latch (R183). -/
def block (st : Status) (s : State) : State := { s with status := st, active := false }

/-- `finish(Retry(p))` (R186): the counter goes back to the fetched slot. -/
def retry (p : Pin) (s : State) : State := { block (.blockedOnInput p) s with pc := s.ipc }

/-- `raise Fault(code)` (R204). There is no return from it but `Reset` (R205). -/
def raiseFault (c : FaultCode) (s : State) : State :=
  { s with faultCode := some c, faultPc := s.pc, status := .faulted, active := false }

/-- The fault an illegal word raises (R200). -/
def faultOf : Reject → FaultCode
  | .reservedBits => .illegalInstruction
  | .reservedOpcode => .illegalInstruction
  | .reservedCond => .illegalInstruction
  | .unusedFieldSet => .illegalInstruction
  | .literalRange => .illegalInstruction
  | .registerPadding => .illegalInstruction
  | .reservedRegister => .illegalInstruction
  | .literalDestination => .illegalInstruction
  | .notAPin => .illegalInstruction
  | .jumpTarget => .jmpTarget

/-- The wraparound logic, `(pc + 1) mod PROG_LEN` (R185). -/
def nextPc (pc : Slot) (n : ProgLen) : Slot := BitVec.ofNat 12 ((pc.toNat + 1) % n.toNat)

/-- `Reset()` (R230): program memory, PROG_LEN and the provider are left alone. -/
def resetCore (s : State) : State :=
  { s with pc := 0, acc := 0, dat := 0, plusAllowed := true, minusAllowed := true,
           status := .notBlocked, active := false, ipc := 0, faultCode := none, faultPc := 0 }

end Sys2Proof.Machine
end

