-- ==== Sys2Proof/Machine/Operands.lean ====
section
/-! DEFINITION. Reading and writing registers and resolving operands (spec/10_state.md R24, R25, R27;
spec/20_memory.md R58, R59). -/

namespace Sys2Proof.Machine

/-- `read(r)` (R24): `NULL` reads 0, a pin asks the provider. -/
def readReg (r : Reg) (s : State) : Resolved × State :=
  match r with
  | .acc => (.value s.acc, s)
  | .dat => (.value s.dat, s)
  | .null => (.value 0, s)
  | .pin p => pinRead p s

/-- `write(r, v)` (R25): `NULL` discards, a pin hands the value to the provider. -/
def writeReg (r : Reg) (v : Int) (s : State) : State :=
  match r with
  | .acc => { s with acc := v }
  | .dat => { s with dat := v }
  | .null => s
  | .pin p => pinWrite p v s

/-- `resolve(op)` (R27). -/
def resolve (o : Operand) (s : State) : Resolved × State :=
  match o with
  | .lit v => (.value v, s)
  | .reg r => readReg r s

/-- The state after the value that operand `o` gave in `before` is discarded: only a pin read is
affected (R59). -/
def discardRead (o : Operand) (before after : State) : State :=
  match o with
  | .lit _ => after
  | .reg .acc => after
  | .reg .dat => after
  | .reg .null => after
  | .reg (.pin p) => { after with pins := after.pins.giveBack p (before.pins.answer p) }

/-- Resolve operand A, then go on with its value; no data ends the instruction with the retry (R27,
R186). -/
def withOperand (a : Operand) (s : State)
    (k : Int → State → Host.Outcome State Fault Refusal) : Host.Outcome State Fault Refusal :=
  match resolve a s with
  | (.value v, s₁) => k v s₁
  | (.unavailable p, s₁) => .next (retry p s₁)

/-- Resolve operand A, then operand B, then go on with both values. B is not read after A was
unavailable (R58); where B is unavailable, A's value is discarded (R59). -/
def withOperands (a b : Operand) (s : State)
    (k : Int → Int → State → Host.Outcome State Fault Refusal) : Host.Outcome State Fault Refusal :=
  match resolve a s with
  | (.unavailable p, s₁) => .next (retry p s₁)
  | (.value x, s₁) =>
    match resolve b s₁ with
    | (.value y, s₂) => k x y s₂
    | (.unavailable p, s₂) => .next (retry p (discardRead a s s₂))

end Sys2Proof.Machine
end

