-- ==== Sys2Proof/Machine/Arithmetic.lean ====
section
/-! DEFINITION. Accumulator arithmetic and digits (spec/42_arithmetic.md): each writes `ACC` and
nothing else. -/

namespace Sys2Proof.Machine

/-- `ADD operand` (R140). -/
def execAdd (x : Operand) (s : State) : Host.Outcome State Fault Refusal :=
  withOperand x s fun v s₁ => .next { s₁ with acc := aluAdd s₁.acc v }

/-- `SUB operand` (R141): `ACC - operand`. -/
def execSub (x : Operand) (s : State) : Host.Outcome State Fault Refusal :=
  withOperand x s fun v s₁ => .next { s₁ with acc := aluSub s₁.acc v }

/-- `MUL operand` (R142). -/
def execMul (x : Operand) (s : State) : Host.Outcome State Fault Refusal :=
  withOperand x s fun v s₁ => .next { s₁ with acc := aluMul s₁.acc v }

/-- `NOT` (R143). -/
def execNot (s : State) : Host.Outcome State Fault Refusal := .next { s with acc := aluNot s.acc }

/-- `DGT index` (R144). -/
def execDgt (index : Operand) (s : State) : Host.Outcome State Fault Refusal :=
  withOperand index s fun i s₁ => .next { s₁ with acc := digitAt s₁.acc i }

/-- `DST index value` (R145). -/
def execDst (index value : Operand) (s : State) : Host.Outcome State Fault Refusal :=
  withOperands index value s fun i d s₁ => .next { s₁ with acc := setDigitAt s₁.acc i d }

end Sys2Proof.Machine
end

