-- ==== Sys2Proof/Machine/MoveControl.lean ====
section
/-! DEFINITION. Move, jump and suspension (spec/41_move_control.md). A meaning is the spec's `exec`
followed by the `finish` of a cycle (R183, R186; log 12). -/

namespace Sys2Proof.Machine

/-- `NOP` (R120). -/
def execNop (s : State) : Host.Outcome State Fault Refusal := .next s

/-- `MOV src dst` (R121). -/
def execMov (src : Operand) (dst : Reg) (s : State) : Host.Outcome State Fault Refusal :=
  withOperand src s fun v s₁ => .next (writeReg dst v s₁)

/-- `JMP t` (R122). -/
def execJmp (t : Slot) (s : State) : Host.Outcome State Fault Refusal := .next { s with pc := t }

/-- `SLP time` (R123): the duration is reported unchanged, whatever its sign (D21). -/
def execSlp (time : Operand) (s : State) : Host.Outcome State Fault Refusal :=
  withOperand time s fun d s₁ => .next (block (.blockedOnTime d) s₁)

/-- `SLX pin` (R124): the pin is not read (D22). -/
def execSlx (p : Pin) (s : State) : Host.Outcome State Fault Refusal :=
  .next (block (.blockedOnInput p) s)

end Sys2Proof.Machine
end

