-- ==== Sys2Proof/Machine/Flags.lean ====
section
/-! DEFINITION. The two allow flags: what the tests compute and what the gate reads
(spec/10_state.md R30; spec/43_test.md R160 to R164; spec/44_fetch_execute.md R184). -/

namespace Sys2Proof.Machine

/-- The two flags a test computes, `plus_allowed` and `minus_allowed`. -/
structure AllowFlags where
  plus : Bool
  minus : Bool
deriving DecidableEq, Repr

/-- The `Teq` row of R164. -/
def teqFlags (x y : Int) : AllowFlags := { plus := decide (x = y), minus := decide (x ≠ y) }

/-- The `Tgt` row of R164. -/
def tgtFlags (x y : Int) : AllowFlags := { plus := decide (y < x), minus := decide (x ≤ y) }

/-- The `Tlt` row of R164. -/
def tltFlags (x y : Int) : AllowFlags := { plus := decide (x < y), minus := decide (y ≤ x) }

/-- The `Tcp` row of R164: both clear where the operands are equal (R163, C1). -/
def tcpFlags (x y : Int) : AllowFlags := { plus := decide (y < x), minus := decide (x < y) }

/-- Write both flags (R30, R165). -/
def setFlags (f : AllowFlags) (s : State) : State :=
  { s with plusAllowed := f.plus, minusAllowed := f.minus }

/-- The conditional-execution gate (R184). -/
def gate (c : Cond) (s : State) : Bool :=
  match c with
  | .regular => true
  | .plus => s.plusAllowed
  | .minus => s.minusAllowed

end Sys2Proof.Machine
end

