-- ==== Sys2Proof/Machine/Test.lean ====
section
/-! DEFINITION. The test instructions (spec/43_test.md): each writes both allow flags and nothing
else. -/

namespace Sys2Proof.Machine

/-- `TEQ a b` (R160). -/
def execTeq (a b : Operand) (s : State) : Host.Outcome State Fault Refusal :=
  withOperands a b s fun x y s₁ => .next (setFlags (teqFlags x y) s₁)

/-- `TGT a b` (R161). -/
def execTgt (a b : Operand) (s : State) : Host.Outcome State Fault Refusal :=
  withOperands a b s fun x y s₁ => .next (setFlags (tgtFlags x y) s₁)

/-- `TLT a b` (R162). -/
def execTlt (a b : Operand) (s : State) : Host.Outcome State Fault Refusal :=
  withOperands a b s fun x y s₁ => .next (setFlags (tltFlags x y) s₁)

/-- `TCP a b` (R163). -/
def execTcp (a b : Operand) (s : State) : Host.Outcome State Fault Refusal :=
  withOperands a b s fun x y s₁ => .next (setFlags (tcpFlags x y) s₁)

end Sys2Proof.Machine
end

