-- ==== Sys2Proof/Machine/Dispatch.lean ====
section
/-! DEFINITION. Dispatch: each legal opcode has exactly one rule (spec/44_fetch_execute.md R191). -/

namespace Sys2Proof.Machine

def exec (i : Instr) (s : State) : Host.Outcome State Fault Refusal :=
  match i with
  | .nop _ => Sys2Proof.Machine.execNop s
  | .mov _ src dst => Sys2Proof.Machine.execMov src dst s
  | .jmp _ t => Sys2Proof.Machine.execJmp t s
  | .slp _ time => Sys2Proof.Machine.execSlp time s
  | .slx _ p => Sys2Proof.Machine.execSlx p s
  | .add _ x => Sys2Proof.Machine.execAdd x s
  | .sub _ x => Sys2Proof.Machine.execSub x s
  | .mul _ x => Sys2Proof.Machine.execMul x s
  | .not _ => Sys2Proof.Machine.execNot s
  | .dgt _ index => Sys2Proof.Machine.execDgt index s
  | .dst _ index value => Sys2Proof.Machine.execDst index value s
  | .teq _ a b => Sys2Proof.Machine.execTeq a b s
  | .tgt _ a b => Sys2Proof.Machine.execTgt a b s
  | .tlt _ a b => Sys2Proof.Machine.execTlt a b s
  | .tcp _ a b => Sys2Proof.Machine.execTcp a b s

end Sys2Proof.Machine
end

