-- ==== Sys2Proof/Machine/Cycle.lean ====
section
/-! DEFINITION. The fetch-execute cycle (spec/44_fetch_execute.md R181 to R186). -/

namespace Sys2Proof.Machine

/-- `MemRead(pc, 1)` (R51, R182). -/
def fetch (s : State) : Option Word := s.mem.read s.pc.toNat

/-- The fetch latches the slot number of the instruction (R29, R182). -/
def latchFetch (s : State) : State := { s with ipc := s.pc }

/-- The fetch advances the counter before the gate and the execution (R28, R182). -/
def advance (s : State) : State := { s with pc := nextPc s.pc s.progLen }

/-- The gate, then the execution with its finish (R182 to R186); a skipped instruction is a no-op
cycle (R184). -/
def gatedExec (i : Instr) (s : State) : Host.Outcome State Fault Refusal :=
  if gate i.cond s then exec i s else .next s

/-- One fetch-execute cycle in the order of R182. The decode and its faults come before the gate (D6),
and a fault leaves `pc` at the faulting slot (R204). -/
def cycle (s : State) : Host.Outcome State Fault Refusal :=
  if s.progLen = 0 then .next (raiseFault .emptyProgram s)
  else if s.progLen.toNat ≤ s.pc.toNat then .next (raiseFault .pcOutOfRange s)
  else
    match fetch s with
    | none => .fault .noSuchSlot
    | some w =>
      match decode w s.progLen with
      | .error e => .next (raiseFault (faultOf e) (latchFetch s))
      | .ok i => gatedExec i (advance (latchFetch s))

/-- Whether the core performs cycles: its run latch is set (R181, R32) and it is not faulted (R205). -/
def running (s : State) : Bool := s.active && s.faultCode.isNone

/-- The core's turn: one cycle, or nothing while it is stopped (R181, R205, R214; log 6). -/
def coreTurn (s : State) : Host.Outcome State Fault Refusal :=
  if running s then cycle s else .next s

end Sys2Proof.Machine
end

