-- ==== Sys2Proof/Machine/HostPort.lean ====
section
/-! DEFINITION. The host's commands and register views (spec/10_state.md R35 to R37;
spec/44_fetch_execute.md R180, R188; spec/70_reset_and_hazards.md R230). -/

namespace Sys2Proof.Machine

/-! The register map (R35). -/

def statusKind : Status → BitVec 2
  | .notBlocked => 0
  | .blockedOnTime _ => 1
  | .blockedOnInput _ => 2
  | .faulted => 3

def pinIndex : Pin → BitVec 2
  | .p0 => 0
  | .p1 => 1
  | .x0 => 2
  | .x1 => 3

/-- STATUS [4:3]. -/
def statusPin : Status → BitVec 2
  | .notBlocked => 0
  | .blockedOnTime _ => 0
  | .blockedOnInput p => pinIndex p
  | .faulted => 0

/-- STATUS [15:5]. -/
def statusDuration : Status → BitVec 11
  | .notBlocked => 0
  | .blockedOnTime d => BitVec.ofInt 11 d
  | .blockedOnInput _ => 0
  | .faulted => 0

/-- The code of R200, 0 for no fault. -/
def faultCodeBits : Option FaultCode → BitVec 3
  | none => 0
  | some .emptyProgram => 1
  | some .pcOutOfRange => 2
  | some .illegalInstruction => 3
  | some .jmpTarget => 4

/-- The host register `h` (R35). -/
def readHostReg (h : HostReg) (s : State) : BitVec 32 :=
  match h with
  | .status =>
    0#16 ++ statusDuration s.status ++ statusPin s.status ++ BitVec.ofBool s.active
      ++ statusKind s.status
  | .fault => 0#16 ++ s.faultPc ++ 0#1 ++ faultCodeBits s.faultCode
  | .progLen => 0#19 ++ s.progLen
  | .pc => 0#20 ++ s.pc
  | .acc => BitVec.ofInt 32 s.acc
  | .dat => BitVec.ofInt 32 s.dat
  | .flags => 0#30 ++ BitVec.ofBool s.minusAllowed ++ BitVec.ofBool s.plusAllowed

/-! The commands (R36); each but `Reset` and `ReadReg` is ignored while the core runs (R37). -/

/-- `LoadWord(i, w)` (R36): a slot that does not exist is an access to nothing (log 7). -/
def hostLoadWord (i : Nat) (w : Word) (s : State) : Host.Outcome State Fault Refusal :=
  if s.active then .next s
  else if i < s.mem.slots then .next { s with mem := s.mem.write i w }
  else .fault .noSuchSlot

/-- `SetProgLen(n)` (R36): a length above PROG_CAPACITY is ignored (R35; log 19). -/
def hostSetProgLen (n : Nat) (s : State) : State :=
  if s.active then s
  else if n ≤ s.mem.slots then { s with progLen := BitVec.ofNat 13 n }
  else s

/-- `Run()` (R180). -/
def hostRun (s : State) : State :=
  if s.active then s
  else if s.faultCode.isSome then s
  else { s with status := .notBlocked, active := true }

/-- Execute a decoded instruction outside the program (R188). `exec` ends as in a cycle; from a stopped
core with `NotBlocked` and the fetch latch lent the value of `pc`, that end is the table of R188: a
retry leaves `pc` where it is, and `active` stays 0 (log 12). -/
def execDirect (i : Instr) (s : State) : Host.Outcome State Fault Refusal :=
  match exec i { s with status := .notBlocked, ipc := s.pc } with
  | .next t => .next { t with ipc := s.ipc }
  | .fault f => .fault f
  | .refused r => .refused r

/-- `ExecDirect(w)` (R188): accepted only while the core is stopped and not faulted; no gate, no
advance of `pc`. -/
def hostExecDirect (w : Word) (s : State) : Host.Outcome State Fault Refusal :=
  if s.active then .next s
  else if s.faultCode.isSome then .next s
  else
    match decode w s.progLen with
    | .error e => .next (raiseFault (faultOf e) s)
    | .ok i => execDirect i s

/-- `ReadReg(h)` (R36), at any time (R37). -/
def hostReadReg (h : HostReg) (s : State) : State := { s with reply := some (readHostReg h s) }

/-- One turn of the host; a turn in which it does nothing is the core's. -/
def hostTurn (t : HostTurn) (s : State) : Host.Outcome State Fault Refusal :=
  match t with
  | .wait => coreTurn s
  | .reset => .next (resetCore s)
  | .loadWord i w => hostLoadWord i w s
  | .setProgLen n => .next (hostSetProgLen n s)
  | .run => .next (hostRun s)
  | .execDirect w => hostExecDirect w s
  | .readReg h => .next (hostReadReg h s)

/-- The host's next turn, or the core's where the host has none (R15, R37, R60: they never act at the
same time; log 5). -/
def turn (s : State) : Host.Outcome State Fault Refusal :=
  match s.host with
  | [] => coreTurn s
  | t :: rest => hostTurn t { s with host := rest }

/-- A program of one word at the slot of `pc`, loaded and started: the host's `LoadWord`, `SetProgLen`
(to the capacity, so that every jump target below it is legal) and `Run` (log 14). -/
def loadAtPc (w : Word) (s : State) : State :=
  { s with mem := s.mem.write s.pc.toNat w, progLen := BitVec.ofNat 13 s.mem.slots,
           status := .notBlocked, active := true, faultCode := none, host := [] }

end Sys2Proof.Machine
end

