-- ==== Sys2Proof/Machine/Step.lean ====
section
/-! DEFINITION. One step of the machine (spec/00_scope.md R15; spec/44_fetch_execute.md R181), and a
word placed where the next step fetches. -/

namespace Sys2Proof.Machine

/-- One step: a turn of the host or of the core. -/
def step (s : State) : Host.Outcome State Fault Refusal := turn s

/-- `s` with the instruction whose bits are `w` stored where the next step fetches, and the core
running (log 14). -/
def State.withFetchWord (s : State) (nbits w : Nat) : State :=
  loadAtPc (BitVec.ofNat 32 (w % 2 ^ nbits)) s

end Sys2Proof.Machine
end

