-- ==== Sys2Proof/Safety.lean ====
section
/-! DEFINITION. What holds in every state the block can be in, and the terms in which
statements about a step are said. -/

namespace Sys2Proof.Safety

open Sys2Proof.Machine

/-- A blocking result whose duration is a datum (R31). -/
def statusInRange : Status → Prop
  | .notBlocked => True
  | .blockedOnTime d => InRange d
  | .blockedOnInput _ => True
  | .faulted => True

/-- The values are data (R21, R26, R31). -/
structure ValuesInRange (s : State) : Prop where
  acc : InRange s.acc
  dat : InRange s.dat
  status : statusInRange s.status

/-- The program memory has its canonical form and holds the program (R34, R51). -/
structure ProgramFits (s : State) : Prop where
  memory : s.mem.wf = true
  length : s.progLen.toNat ≤ s.mem.slots

/-- The run latch, the status and the fault registers agree (R31 to R33, R180, R183, R204). -/
structure ControlConsistent (s : State) : Prop where
  runs_unblocked : s.active = true → s.status = .notBlocked
  faulted_iff : s.status = .faulted ↔ s.faultCode ≠ none
  no_fault_pc : s.faultCode = none → s.faultPc = 0

/-- The invariant of the block. -/
structure BlockInv (s : State) : Prop where
  values : ValuesInRange s
  program : ProgramFits s
  control : ControlConsistent s

/-- It is the core's turn: the host has no command for this step. -/
def CoreActs (s : State) : Prop := s.host = [] ∨ ∃ rest, s.host = .wait :: rest

/-- The state with the host's turn of this step taken from its list. -/
def afterTurn (s : State) : State := { s with host := s.host.tail }

/-- The running core fetches the word `w` (R182): it is the core's turn, the counter lies below PROG_LEN
and the slot exists. -/
structure Fetches (s : State) (w : Word) : Prop where
  turn : CoreActs s
  runs : running s = true
  below : s.pc.toNat < s.progLen.toNat
  word : s.mem.read s.pc.toNat = some w

/-- The running core fetches a word that decodes to `i`. -/
def FetchesInstr (s : State) (i : Instr) : Prop :=
  ∃ w, Fetches s w ∧ decode w s.progLen = .ok i

/-- The state in which a fetched instruction is gated and executed: the latch holds its slot and the
counter the next one (R28, R29, R182). -/
def atExec (s : State) : State :=
  { s with host := s.host.tail, ipc := s.pc, pc := nextPc s.pc s.progLen }

end Sys2Proof.Safety
end

