-- ==== Sys2Proof/Certificates/Slice0/Obligations.lean ====
section
/-! DEFINITION. The statements for the provers. Each docstring names the rules of spec/ it formalises;
a clause that rests on a choice of the model names its log entry (notes/assumptions/<n>.md). -/

open Sys2Proof Sys2Proof.Machine Sys2Proof.Safety

/-! ## Reset and the host's commands -/

/-- R230: `Reset` at any time sets the core's registers and leaves program memory and PROG_LEN alone. That
it also leaves the whole pin port with its record and counter, the host's remaining turns and the last
reply is the model's (log 5, 11, 13; R230 says it of the provider). -/
def Obligations.ResetSetsCoreStateOnly : Prop :=
  ∀ (s : State) (rest : List HostTurn), s.host = .reset :: rest →
    step s = .next
      { s with
        host := rest, pc := 0, acc := 0, dat := 0, plusAllowed := true, minusAllowed := true,
        status := .notBlocked, active := false, ipc := 0, faultCode := none, faultPc := 0 }

/-- R231: at power-on the core is as `Reset` leaves it, PROG_LEN is 0, program memory holds unspecified
words, and a `Run` faults with EMPTY_PROGRAM, whatever the number of slots and the pin port are. That the
unspecified word of a slot is one fixed free value is the model's choice (log 3). -/
def Obligations.PowerOnStateAndFirstRun : Prop :=
  ∀ (slots : Nat) (q : PinPort) (s : State),
    s = { State.reset with mem := { State.reset.mem with slots := slots }, pins := q } →
    resetCore s = s ∧ s.progLen = 0 ∧
    (∀ i, i < slots → s.mem.read i = some (Config.powerOnWord i)) ∧
    ∃ s₁, step { s with host := [.run] } = .next s₁ ∧
      step s₁ = .next
        { s with faultCode := some .emptyProgram, faultPc := 0, status := .faulted, active := false }

/-- The invariant holds at reset (R38). -/
def Obligations.ResetMeetsInvariant : Prop := BlockInv State.reset

/-- Every step keeps the invariant: `ACC`, `DAT` and a sleep's duration are data (R21, R26, R31), the
program memory keeps its canonical form and holds the program (R34), a running core is not blocked and
the status is Faulted exactly while a fault is recorded (R31 to R33, R204). -/
def Obligations.StepKeepsInvariant : Prop :=
  ∀ s t : State, BlockInv s → step s = .next t → BlockInv t

/-- From a state that meets the invariant the model stops only where the host loads a word into a slot
that does not exist (log 7); it never refuses. -/
def Obligations.StopsOnlyAtAbsentSlot : Prop :=
  ∀ s : State, BlockInv s →
    (∀ r, step s ≠ .refused r) ∧
    ∀ f, step s = .fault f →
      f = .noSuchSlot ∧ s.active = false ∧ ∃ i w rest, s.host = .loadWord i w :: rest ∧ s.mem.slots ≤ i

/-- R180: `Run` starts a stopped core that is not faulted and changes nothing else; otherwise it has no
effect. -/
def Obligations.RunStartsStoppedCore : Prop :=
  ∀ (s : State) (rest : List HostTurn), s.host = .run :: rest →
    (s.active = false → s.faultCode = none →
      step s = .next { s with host := rest, status := .notBlocked, active := true }) ∧
    (s.active = true ∨ s.faultCode ≠ none → step s = .next { s with host := rest })

/-- R36, R51: `LoadWord(i, w)` on a stopped core stores one word in slot `i` and changes no other slot and
no other state. A slot that does not exist stops the model (log 7). -/
def Obligations.LoadWordStoresOneSlot : Prop :=
  ∀ (s : State) (i : Nat) (w : Word) (rest : List HostTurn),
    s.host = .loadWord i w :: rest → s.active = false →
    (i < s.mem.slots → ∃ t, step s = .next t ∧ t = { s with host := rest, mem := t.mem } ∧
      t.mem.slots = s.mem.slots ∧ t.mem.read i = some w ∧ ∀ j, j ≠ i → t.mem.read j = s.mem.read j) ∧
    (s.mem.slots ≤ i → step s = .fault .noSuchSlot)

/-- R35, R36: `SetProgLen(n)` on a stopped core writes PROG_LEN for `n` up to the capacity; a greater
value is ignored (the command and the register H2 taken as one, log 19). -/
def Obligations.SetProgLenWritesUpToCapacity : Prop :=
  ∀ (s : State) (n : Nat) (rest : List HostTurn),
    s.host = .setProgLen n :: rest → s.active = false → s.mem.slots ≤ 4096 →
    (n ≤ s.mem.slots → ∃ t, step s = .next t ∧ t = { s with host := rest, progLen := t.progLen } ∧
      t.progLen.toNat = n) ∧
    (s.mem.slots < n → step s = .next { s with host := rest })

/-- R37: while `active` is 1 the commands `LoadWord`, `SetProgLen`, `Run` and `ExecDirect` have no effect;
`Reset` and `ReadReg` act at any time. That the register `ReadReg` returns (R36) is kept in a field of the
state is the model's choice (log 11). -/
def Obligations.CommandsIgnoredWhileActive : Prop :=
  ∀ (s : State) (rest : List HostTurn),
    (s.active = true →
      (∀ i w, s.host = .loadWord i w :: rest → step s = .next { s with host := rest }) ∧
      (∀ n, s.host = .setProgLen n :: rest → step s = .next { s with host := rest }) ∧
      (s.host = .run :: rest → step s = .next { s with host := rest }) ∧
      (∀ w, s.host = .execDirect w :: rest → step s = .next { s with host := rest })) ∧
    (s.host = .reset :: rest → step s = .next (resetCore { s with host := rest })) ∧
    (∀ h, s.host = .readReg h :: rest →
      step s = .next { s with host := rest, reply := some (readHostReg h s) })

/-- R35: the bits of the host registers STATUS and FAULT. -/
def Obligations.StatusAndFaultRegisterBits : Prop :=
  ∀ s : State,
    (readHostReg .status s).extractLsb' 0 2
      = (match s.status with
         | .notBlocked => 0 | .blockedOnTime _ => 1 | .blockedOnInput _ => 2 | .faulted => 3) ∧
    (readHostReg .status s).extractLsb' 2 1 = BitVec.ofBool s.active ∧
    (readHostReg .status s).extractLsb' 3 2
      = (match s.status with
         | .blockedOnInput .p1 => 1 | .blockedOnInput .x0 => 2 | .blockedOnInput .x1 => 3 | _ => 0) ∧
    (∀ d, s.status = .blockedOnTime d → InRange d →
      ((readHostReg .status s).extractLsb' 5 11).toInt = d) ∧
    ((∀ d, s.status ≠ .blockedOnTime d) → (readHostReg .status s).extractLsb' 5 11 = 0) ∧
    (readHostReg .status s).extractLsb' 16 16 = 0 ∧
    (readHostReg .fault s).extractLsb' 0 3
      = (match s.faultCode with
         | none => 0 | some .emptyProgram => 1 | some .pcOutOfRange => 2
         | some .illegalInstruction => 3 | some .jmpTarget => 4) ∧
    (readHostReg .fault s).extractLsb' 3 1 = 0 ∧
    (readHostReg .fault s).extractLsb' 4 12 = s.faultPc ∧
    (readHostReg .fault s).extractLsb' 16 16 = 0

/-- R35: the host registers PROG_LEN, PC, ACC, DAT and FLAGS. -/
def Obligations.ValueRegisterViews : Prop :=
  ∀ s : State,
    (readHostReg .progLen s).toNat = s.progLen.toNat ∧
    (readHostReg .pc s).toNat = s.pc.toNat ∧
    (InRange s.acc → (readHostReg .acc s).toInt = s.acc) ∧
    (InRange s.dat → (readHostReg .dat s).toInt = s.dat) ∧
    (readHostReg .flags s).toNat = s.plusAllowed.toNat + 2 * s.minusAllowed.toNat

/-- R188: `ExecDirect(w)` on a stopped core that is not faulted executes the decoded instruction once,
without the gate and without an advance of `pc`: it leaves the registers, the flags, the pin port and
the status that the instruction leaves from NotBlocked, keeps `active` 0 and the fetch latch, and
moves `pc` only for `JMP`; an illegal word faults at the current `pc`. While the core runs or is
faulted it has no effect. -/
def Obligations.ExecDirectRunsOneInstruction : Prop :=
  ∀ (s : State) (w : Word) (rest : List HostTurn), s.host = .execDirect w :: rest →
    (s.active = true ∨ s.faultCode ≠ none → step s = .next { s with host := rest }) ∧
    (s.active = false → s.faultCode = none →
      (∀ e, decode w s.progLen = .error e →
        step s = .next
          { s with
            host := rest, faultPc := s.pc, status := .faulted, active := false,
            faultCode := some (if e = .jumpTarget then .jmpTarget else .illegalInstruction) }) ∧
      (∀ i, decode w s.progLen = .ok i →
        ∃ t u, step s = .next t ∧ exec i { s with status := .notBlocked } = .next u ∧
          t = { s with
                host := rest, acc := u.acc, dat := u.dat, plusAllowed := u.plusAllowed,
                minusAllowed := u.minusAllowed, pins := u.pins, status := u.status, pc := t.pc } ∧
          (∀ c target, i = .jmp c target → t.pc = target) ∧
          ((∀ c target, i ≠ .jmp c target) → t.pc = s.pc)))

/-! ## The fetch-execute cycle -/

/-- A step runs the decoded instruction (R182): where the running core fetches a word that decodes to `i`
and the gate lets it through, the step is `exec i` with the host's turn taken, the latch at the
instruction's slot and the counter at the next one. -/
def Obligations.StepRunsDecodedInstruction : Prop :=
  ∀ (s : State) (w : Word) (i : Instr),
    CoreActs s → s.active = true → s.faultCode = none → s.pc.toNat < s.progLen.toNat →
    s.pc.toNat < s.mem.slots → s.mem.word s.pc.toNat = w → decode w s.progLen = .ok i →
    (i.cond = .regular ∨ (i.cond = .plus ∧ s.plusAllowed = true)
      ∨ (i.cond = .minus ∧ s.minusAllowed = true)) →
    step s = exec i { s with host := s.host.tail, ipc := s.pc, pc := nextPc s.pc s.progLen }

/-- R184: the gate, and a skipped instruction, which only advances the counter (its cycle also writes the
fetch latch, R29). -/
def Obligations.GateSkipsInstruction : Prop :=
  (∀ s : State, gate .regular s = true ∧ gate .plus s = s.plusAllowed ∧ gate .minus s = s.minusAllowed) ∧
  ∀ (s : State) (i : Instr), FetchesInstr s i →
    ((i.cond = .plus ∧ s.plusAllowed = false) ∨ (i.cond = .minus ∧ s.minusAllowed = false)) →
    step s = .next { s with host := s.host.tail, ipc := s.pc, pc := nextPc s.pc s.progLen }

/-- R120, corner case: in a cycle `NOP` behaves exactly like a skipped instruction of any opcode. -/
def Obligations.NopActsLikeSkipped : Prop :=
  ∀ (s₁ s₂ : State) (c : Cond) (i : Instr),
    FetchesInstr s₁ (.nop c) → FetchesInstr s₂ i → gate i.cond s₂ = false →
    s₂ = { s₁ with mem := s₂.mem } →
    ∃ t, step s₁ = .next t ∧ step s₂ = .next { t with mem := s₂.mem }

/-- R203, R204 with the order of R182: the faults of a cycle, each with its condition, and what fault
entry writes; `pc` stays at the faulting slot. An illegal word faults whatever its qualifier and the
flags say (R78). -/
def Obligations.CycleFaultsInPriorityOrder : Prop :=
  ∀ s : State, CoreActs s → s.active = true → s.faultCode = none →
    (s.progLen = 0 →
      step s = .next
        { s with
          host := s.host.tail, faultCode := some .emptyProgram, faultPc := s.pc,
          status := .faulted, active := false }) ∧
    (s.progLen ≠ 0 → s.progLen.toNat ≤ s.pc.toNat →
      step s = .next
        { s with
          host := s.host.tail, faultCode := some .pcOutOfRange, faultPc := s.pc,
          status := .faulted, active := false }) ∧
    (s.pc.toNat < s.progLen.toNat → s.pc.toNat < s.mem.slots →
      ∀ e, decode (s.mem.word s.pc.toNat) s.progLen = .error e →
      step s = .next
        { s with
          host := s.host.tail, ipc := s.pc, faultPc := s.pc, status := .faulted, active := false,
          faultCode := some (if e = .jumpTarget then .jmpTarget else .illegalInstruction) })

/-- R203: `JMP_TARGET` is reported exactly for a `JMP` word whose only defect is a target at or above
PROG_LEN. -/
def Obligations.JumpTargetIsOnlyDefect : Prop :=
  ∀ (w : Word) (n : ProgLen),
    decode w n = .error .jumpTarget ↔
      w.extractLsb' 30 2 = 0 ∧ w.extractLsb' 0 4 = 2 ∧ w.extractLsb' 4 2 ≠ 3 ∧
        w.extractLsb' 18 12 = 0 ∧ n.toNat ≤ (w.extractLsb' 6 12).toNat

/-- R181, R205, R214: while its run latch is clear, or a fault is recorded, the core takes no step: the
machine stays as it is on the core's turn (the stutter is the model's, log 6). -/
def Obligations.StoppedCoreTakesNoStep : Prop :=
  ∀ s : State, CoreActs s → (s.active = false ∨ s.faultCode ≠ none) →
    step s = .next { s with host := s.host.tail }

/-- R205, R36: a fault is sticky: `Run`, `ExecDirect` and the core's turn have no effect, no step but a
`Reset` changes the fault registers, the status or what the faulting cycle left, and `Reset` clears the
fault registers. That the core's turn is a step that leaves the state as it is, and not an absent step, is
the model's choice (log 6). -/
def Obligations.FaultIsStickyUntilReset : Prop :=
  ∀ s : State, s.faultCode ≠ none →
    ((∃ rest, s.host = .run :: rest) ∨ (∃ w rest, s.host = .execDirect w :: rest) ∨ CoreActs s →
      step s = .next { s with host := s.host.tail }) ∧
    (∀ t, step s = .next t → (∀ rest, s.host ≠ .reset :: rest) →
      t.faultCode = s.faultCode ∧ t.faultPc = s.faultPc ∧ t.status = s.status ∧ t.active = s.active ∧
        t.pc = s.pc ∧ t.acc = s.acc ∧ t.dat = s.dat ∧ t.plusAllowed = s.plusAllowed ∧
        t.minusAllowed = s.minusAllowed ∧ t.pins = s.pins) ∧
    (∀ rest, s.host = .reset :: rest → ∃ t, step s = .next t ∧ t.faultCode = none ∧ t.faultPc = 0)

/-- R185: the wraparound, in the form of its two cases; with PROG_LEN 1 the counter stays at 0. -/
def Obligations.NextPcWrapsAtProgLen : Prop :=
  ∀ (pc : Slot) (n : ProgLen), pc.toNat < n.toNat → n.toNat ≤ 4096 →
    (nextPc pc n).toNat = (if pc.toNat + 1 < n.toNat then pc.toNat + 1 else 0) ∧
    (n = 1 → nextPc pc n = 0)

/-- R185: a cycle moves the counter by the wraparound, to the target of an executed `JMP`, or not at all
(a retry, which blocks, or a fault). -/
def Obligations.PcMovesByWrapJumpOrNotAtAll : Prop :=
  ∀ s t : State, CoreActs s → s.active = true → s.faultCode = none → step s = .next t →
    t.pc = nextPc s.pc s.progLen ∨
    (t.pc = s.pc ∧ t.active = false) ∨
    ∃ c target, FetchesInstr s (.jmp c target) ∧ gate c s = true ∧ t.pc = target

/-- R201: the wraparound rule keeps `pc` below PROG_LEN on its own; only a `SetProgLen` can put it out of
range. -/
def Obligations.PcStaysBelowProgLen : Prop :=
  ∀ s t : State, BlockInv s → s.pc.toNat < s.progLen.toNat → step s = .next t →
    (∀ n rest, s.host ≠ .setProgLen n :: rest) → t.progLen = s.progLen ∧ t.pc.toNat < t.progLen.toNat

/-- R187: a run ends only when an executed instruction blocks on time or on input (a retry blocks on
input), or a fault is raised: where the core's own turn drops the run latch, the status says which. -/
def Obligations.RunEndsOnlyByBlockOrFault : Prop :=
  ∀ s t : State, CoreActs s → s.active = true → step s = .next t → t.active = false →
    (∃ i, FetchesInstr s i ∧ gate i.cond s = true ∧ t.faultCode = none ∧
      ((∃ d, t.status = .blockedOnTime d) ∨ ∃ p, t.status = .blockedOnInput p)) ∨
    (t.status = .faulted ∧ t.faultCode ≠ none)

/-- A word placed where the next step fetches is the instruction the next step runs (log 14). -/
def Obligations.WithFetchWordRunsInstruction : Prop :=
  ∀ (s : State) (w : Nat) (i : Instr),
    s.mem.slots ≤ 4096 → s.pc.toNat < s.mem.slots →
    decode (BitVec.ofNat 32 w) (BitVec.ofNat 13 s.mem.slots) = .ok i → gate i.cond s = true →
    step (s.withFetchWord 32 w)
      = exec i { s.withFetchWord 32 w with
                 ipc := s.pc, pc := nextPc s.pc (BitVec.ofNat 13 s.mem.slots) }

/-! ## Instructions: moves, jump and suspension -/

/-- R120: `NOP` completes and changes nothing. -/
def Obligations.NopChangesNothing : Prop :=
  ∀ (c : Cond) (s : State), exec (.nop c) s = .next s

/-- R121: `MOV` completes wherever its source gives a value: `ACC` and `DAT` take it, `NULL` discards it, a
pin hands it to the provider. Without data nothing is written. That a pin write is one event of the port's
record (log 11) and leaves the provider's coming answers and the counter as they are (log 8) is the
model's choice. -/
def Obligations.MovCopiesSourceToDestination : Prop :=
  ∀ (c : Cond) (src : Operand) (dst : Reg) (s s₁ : State),
    (∀ v, resolve src s = (.value v, s₁) →
      exec (.mov c src dst) s = .next
        (match dst with
         | .acc => { s₁ with acc := v }
         | .dat => { s₁ with dat := v }
         | .null => s₁
         | .pin p => { s₁ with pins := { s₁.pins with log := s₁.pins.log ++ [.write p v] } })) ∧
    (∀ p, resolve src s = (.unavailable p, s₁) →
      exec (.mov c src dst) s
        = .next { s₁ with pc := s.ipc, status := .blockedOnInput p, active := false })

/-- R122: `JMP` completes and writes `pc` only. -/
def Obligations.JmpWritesPc : Prop :=
  ∀ (c : Cond) (target : Slot) (s : State), exec (.jmp c target) s = .next { s with pc := target }

/-- R123: `SLP` completes wherever its operand gives a value, of any sign: it blocks on time with that
value and changes nothing else. Without data it is retried instead. -/
def Obligations.SlpBlocksOnTime : Prop :=
  ∀ (c : Cond) (time : Operand) (s s₁ : State),
    (∀ d, resolve time s = (.value d, s₁) →
      exec (.slp c time) s = .next { s₁ with status := .blockedOnTime d, active := false }) ∧
    (∀ p, resolve time s = (.unavailable p, s₁) →
      exec (.slp c time) s
        = .next { s₁ with pc := s.ipc, status := .blockedOnInput p, active := false })

/-- R124: `SLX` completes: it blocks on its pin, even if the pin has data, and makes no pin access. -/
def Obligations.SlxBlocksOnInput : Prop :=
  ∀ (c : Cond) (p : Pin) (s : State),
    exec (.slx c p) s = .next { s with status := .blockedOnInput p, active := false }

/-! ## Instructions: arithmetic, digits and tests -/

/-- R140 to R142: `ADD`, `SUB` and `MUL` complete wherever the operand gives a value: `ACC` becomes the
exact result clamped to [-999, 999]. Without data nothing is written. -/
def Obligations.AddSubMulSaturateIntoAcc : Prop :=
  ∀ (c : Cond) (x : Operand) (s s₁ : State),
    (∀ v, resolve x s = (.value v, s₁) →
      exec (.add c x) s = .next { s₁ with acc := max (-999) (min 999 (s.acc + v)) } ∧
      exec (.sub c x) s = .next { s₁ with acc := max (-999) (min 999 (s.acc - v)) } ∧
      exec (.mul c x) s = .next { s₁ with acc := max (-999) (min 999 (s.acc * v)) }) ∧
    (∀ p, resolve x s = (.unavailable p, s₁) →
      exec (.add c x) s
        = .next { s₁ with pc := s.ipc, status := .blockedOnInput p, active := false } ∧
      exec (.sub c x) s
        = .next { s₁ with pc := s.ipc, status := .blockedOnInput p, active := false } ∧
      exec (.mul c x) s
        = .next { s₁ with pc := s.ipc, status := .blockedOnInput p, active := false })

/-- R143: `NOT` completes: `ACC` becomes 100 from 0 and 0 from every other value. -/
def Obligations.NotIsHundredOrZero : Prop :=
  ∀ (c : Cond) (s : State),
    (s.acc = 0 → exec (.not c) s = .next { s with acc := 100 }) ∧
    (s.acc ≠ 0 → exec (.not c) s = .next { s with acc := 0 })

/-- R144 with R108: `DGT` completes wherever the index gives a value: `ACC` becomes its decimal digit at
that index, sign dropped, and 0 for a negative index. Without data nothing is written. -/
def Obligations.DgtExtractsDigit : Prop :=
  ∀ (c : Cond) (index : Operand) (s s₁ : State),
    (∀ i, resolve index s = (.value i, s₁) →
      exec (.dgt c index) s = .next
        { s₁ with acc := if i < 0 then 0 else ((s.acc.natAbs / 10 ^ i.toNat % 10 : Nat) : Int) }) ∧
    (∀ p, resolve index s = (.unavailable p, s₁) →
      exec (.dgt c index) s
        = .next { s₁ with pc := s.ipc, status := .blockedOnInput p, active := false })

/-- R145 with R109: `DST` completes wherever the index, read first, and then the value give values: `ACC`
is unchanged for a negative index; else its digit at the index is replaced by the value clamped to
0..9, the sign is kept, 0 counting as positive, and the result is clamped. -/
def Obligations.DstReplacesDigit : Prop :=
  ∀ (c : Cond) (index value : Operand) (s s₁ s₂ : State) (i d : Int),
    resolve index s = (.value i, s₁) → resolve value s₁ = (.value d, s₂) →
    (i < 0 → exec (.dst c index value) s = .next s₂) ∧
    (0 ≤ i → ∀ old place new : Int,
      place = ((10 ^ i.toNat : Nat) : Int) →
      old = ((s.acc.natAbs / 10 ^ i.toNat % 10 : Nat) : Int) →
      new = max 0 (min 9 d) →
      exec (.dst c index value) s = .next
        { s₂ with
          acc := max (-999) (min 999
            ((if s.acc < 0 then -1 else 1)
              * ((s.acc.natAbs : Int) - (if i ≤ 2 then old * place else 0) + new * place))) })

/-- R160 to R163, R164: the tests complete wherever both operands, `a` read first, give values: they write
both flags by the outcome table and nothing else. -/
def Obligations.TestsWriteFlagsByTable : Prop :=
  ∀ (c : Cond) (a b : Operand) (s s₁ s₂ : State) (x y : Int),
    resolve a s = (.value x, s₁) → resolve b s₁ = (.value y, s₂) →
    exec (.teq c a b) s
      = .next { s₂ with plusAllowed := decide (x = y), minusAllowed := decide (x ≠ y) } ∧
    exec (.tgt c a b) s
      = .next { s₂ with plusAllowed := decide (x > y), minusAllowed := decide (x ≤ y) } ∧
    exec (.tlt c a b) s
      = .next { s₂ with plusAllowed := decide (x < y), minusAllowed := decide (x ≥ y) } ∧
    exec (.tcp c a b) s
      = .next { s₂ with plusAllowed := decide (x > y), minusAllowed := decide (y > x) }

/-! ## Registers, operands and pins -/

/-- R24, R27, R55: what reading a register and resolving an operand return; a literal and a core register
have no side effect, and a pin read, whose value the core saturates, touches nothing but the pin port.
The read event in the port's record is the model's (log 11), and what else a read does to the port is
said by `StubReadsZero` and `ExternalReadSaturates`. -/
def Obligations.RegisterReads : Prop :=
  ∀ s : State,
    readReg .acc s = (.value s.acc, s) ∧ readReg .dat s = (.value s.dat, s) ∧
    readReg .null s = (.value 0, s) ∧
    (∀ v, resolve (.lit v) s = (.value v, s)) ∧ (∀ r, resolve (.reg r) s = readReg r s) ∧
    ∀ p, (s.pins.afterRead p).log = s.pins.log ++ [.read p (s.pins.answer p)] ∧
      (∀ v, s.pins.answer p = .value v →
        readReg (.pin p) s = (.value (sat v), { s with pins := s.pins.afterRead p })) ∧
      (s.pins.answer p = .dataNotAvailable →
        readReg (.pin p) s = (.unavailable p, { s with pins := s.pins.afterRead p }))

/-- R25: writing `ACC` or `DAT` updates it, a write to `NULL` is discarded, a pin write is handed to the
provider and changes no other state. The write event in the port's record is the model's (log 11), and so
is that the provider's coming answers stay as they are (log 8). -/
def Obligations.RegisterWrites : Prop :=
  ∀ (s : State) (v : Int),
    writeReg .acc v s = { s with acc := v } ∧ writeReg .dat v s = { s with dat := v } ∧
    writeReg .null v s = s ∧
    ∀ p, writeReg (.pin p) v s
      = { s with pins := { s.pins with log := s.pins.log ++ [.write p v] } }

/-- R57: the stub is the default provider; with the stub every pin read gives 0, a pin write is discarded,
and no operand is ever without data. The event that a read or a write leaves in the port's record is the
model's choice (log 11). -/
def Obligations.StubReadsZero : Prop :=
  State.reset.pins.provider = .stub ∧
  ∀ s : State, s.pins.provider = .stub →
    (∀ p, resolve (.reg (.pin p)) s
      = (.value 0, { s with pins := { s.pins with log := s.pins.log ++ [.read p (.value 0)] } })) ∧
    (∀ p v, writeReg (.pin p) v s
      = { s with pins := { s.pins with log := s.pins.log ++ [.write p v] } }) ∧
    (∀ o p s₁, resolve o s ≠ (.unavailable p, s₁))

/-- R55: a value from an external provider reaches the core saturated, and DataNotAvailable is treated alike
for all four pins. The form of the provider is the model's (log 8, 10, 11): its answer is the first one
scripted for that pin, wherever it stands among other pins' answers, which it leaves in place; a pin with
none scripted gets the free value; and each read advances the counter and is recorded. -/
def Obligations.ExternalReadSaturates : Prop :=
  ∀ (s : State) (p : Pin) (front rest : List (Pin × PinAnswer)),
    s.pins.provider = .external → (∀ x ∈ front, x.1 ≠ p) →
    (∀ v : Int, s.pins.script = front ++ (p, .value v) :: rest →
      resolve (.reg (.pin p)) s
        = (.value (max (-999) (min 999 v)),
          { s with pins := { s.pins with
              script := front ++ rest, reads := s.pins.reads + 1,
              log := s.pins.log ++ [.read p (.value v)] } })) ∧
    (s.pins.script = front ++ (p, .dataNotAvailable) :: rest →
      resolve (.reg (.pin p)) s
        = (.unavailable p,
          { s with pins := { s.pins with
              script := front ++ rest, reads := s.pins.reads + 1,
              log := s.pins.log ++ [.read p .dataNotAvailable] } })) ∧
    (s.pins.script = front →
      (∀ v, Config.pinAnswer s.pins.reads p = some v →
        resolve (.reg (.pin p)) s
          = (.value (max (-999) (min 999 v)),
            { s with pins := { s.pins with
                reads := s.pins.reads + 1, log := s.pins.log ++ [.read p (.value v)] } })) ∧
      (Config.pinAnswer s.pins.reads p = none →
        resolve (.reg (.pin p)) s
          = (.unavailable p,
            { s with pins := { s.pins with
                reads := s.pins.reads + 1, log := s.pins.log ++ [.read p .dataNotAvailable] } })))

/-- R58, R59, R186: an instruction of two value operands retries on the first operand without data, `B` not
being read after `A` was unavailable; where `B` is unavailable, the value read for `A` is discarded
(`discardRead`, of which `DiscardedReadFollowsProvider` says what it does under PIN_READ_CONSUMES, log 9),
and besides that only `pc`, `status` and `active` change. -/
def Obligations.TwoOperandRetry : Prop :=
  ∀ (c : Cond) (a b : Operand) (s s₁ s₂ : State) (p : Pin) (i : Instr),
    i = .dst c a b ∨ i = .teq c a b ∨ i = .tgt c a b ∨ i = .tlt c a b ∨ i = .tcp c a b →
    (resolve a s = (.unavailable p, s₁) →
      exec i s = .next { s₁ with pc := s.ipc, status := .blockedOnInput p, active := false }) ∧
    (∀ x, resolve a s = (.value x, s₁) → resolve b s₁ = (.unavailable p, s₂) →
      exec i s
        = .next { discardRead a s s₂ with
                  pc := s.ipc, status := .blockedOnInput p, active := false })

/-- R59 (PIN_READ_CONSUMES, log 9): a value of pin `p` discarded by a retry is lost where the provider
counts the read as consumed; where it does not, the next read of `p` gives the same answer, and nothing
but the provider's coming answers changes. Discarding any other operand's value changes nothing. -/
def Obligations.DiscardedReadFollowsProvider : Prop :=
  (∀ (s s₁ : State) (o : Operand), (∀ p, o ≠ .reg (.pin p)) → discardRead o s s₁ = s₁) ∧
  ∀ (s s₁ : State) (p : Pin), s₁.pins.provider = .external →
    (s₁.pins.readConsumes = true → discardRead (.reg (.pin p)) s s₁ = s₁) ∧
    (s₁.pins.readConsumes = false →
      (discardRead (.reg (.pin p)) s s₁).pins.answer p = s.pins.answer p ∧
      discardRead (.reg (.pin p)) s s₁
        = { s₁ with pins := { s₁.pins with script := (p, s.pins.answer p) :: s₁.pins.script } })

/-- R186: where a fetched instruction that is no `SLX` ends with `BlockedOnInput`, the retry has put `pc`
back to its slot, the run is over, and `ACC`, `DAT` and the flags are as before the cycle. -/
def Obligations.RetryRefetchesInstruction : Prop :=
  ∀ (s t : State) (i : Instr) (p : Pin),
    FetchesInstr s i → gate i.cond s = true → (∀ c q, i ≠ .slx c q) → s.status = .notBlocked →
    step s = .next t → t.status = .blockedOnInput p →
    t.pc = s.pc ∧ t.active = false ∧ t.acc = s.acc ∧ t.dat = s.dat ∧
      t.plusAllowed = s.plusAllowed ∧ t.minusAllowed = s.minusAllowed ∧ t.faultCode = s.faultCode ∧
      t.mem = s.mem ∧ t.progLen = s.progLen

/-- R58: an instruction makes at most two pin reads and at most one pin write, and the write comes after
every read, as the port's record has them (the model's own, log 11). -/
def Obligations.PinAccessesOfOneInstruction : Prop :=
  ∀ (i : Instr) (s t : State), exec i s = .next t →
    ∃ reads writes : List PinEvent,
      t.pins.log = s.pins.log ++ reads ++ writes ∧ reads.length ≤ 2 ∧ writes.length ≤ 1 ∧
      (∀ e ∈ reads, ∃ p a, e = .read p a) ∧ (∀ e ∈ writes, ∃ p v, e = .write p v)

/-! ## Frames and whole-machine rules -/

/-- R200: no instruction faults while executing: every instruction takes a next state from every state. -/
def Obligations.ExecutionNeverFaults : Prop :=
  ∀ (i : Instr) (s : State), ∃ t, exec i s = .next t

/-- R33, R51: no instruction writes program memory, PROG_LEN, the fault registers or the fetch latch, nor
the model's own host list, reply and provider settings. -/
def Obligations.InstructionsLeaveControlState : Prop :=
  ∀ (i : Instr) (s t : State), exec i s = .next t →
    t.mem = s.mem ∧ t.progLen = s.progLen ∧ t.faultCode = s.faultCode ∧ t.faultPc = s.faultPc ∧
      t.ipc = s.ipc ∧ t.host = s.host ∧ t.reply = s.reply ∧ t.pins.provider = s.pins.provider ∧
      t.pins.readConsumes = s.pins.readConsumes

/-- Frame of `ADD`, `SUB`, `MUL`, `NOT`, `DGT` and `DST` (head of 42_arithmetic.md): they write `ACC` and
nothing else, or, without data, make no write and block on input. -/
def Obligations.ArithmeticFrame : Prop :=
  ∀ (c : Cond) (x y : Operand) (i : Instr) (s t : State),
    i = .add c x ∨ i = .sub c x ∨ i = .mul c x ∨ i = .not c ∨ i = .dgt c x ∨ i = .dst c x y →
    exec i s = .next t →
    t = { s with acc := t.acc, pins := t.pins } ∨
    ∃ p, t = { s with
               pins := t.pins, pc := s.ipc, status := .blockedOnInput p, active := false }

/-- Frame of the tests (R160 to R163, R165): they write both flags and nothing else, or, without data,
write neither flag and block on input. -/
def Obligations.TestFrame : Prop :=
  ∀ (c : Cond) (a b : Operand) (i : Instr) (s t : State),
    i = .teq c a b ∨ i = .tgt c a b ∨ i = .tlt c a b ∨ i = .tcp c a b →
    exec i s = .next t →
    t = { s with plusAllowed := t.plusAllowed, minusAllowed := t.minusAllowed, pins := t.pins } ∨
    ∃ p, t = { s with
               pins := t.pins, pc := s.ipc, status := .blockedOnInput p, active := false }

/-- Frame of `NOP`, `MOV`, `JMP`, `SLP` and `SLX`: no flag changes, `ACC` and `DAT` change only as the
destination of a `MOV`, and status and run latch only where the instruction blocks. -/
def Obligations.MoveControlFrame : Prop :=
  ∀ (c : Cond) (x : Operand) (r : Reg) (target : Slot) (p : Pin) (i : Instr) (s t : State),
    i = .nop c ∨ i = .mov c x r ∨ i = .jmp c target ∨ i = .slp c x ∨ i = .slx c p →
    exec i s = .next t →
    t.plusAllowed = s.plusAllowed ∧ t.minusAllowed = s.minusAllowed ∧ t.mem = s.mem ∧
    (t.acc ≠ s.acc → i = .mov c x .acc) ∧ (t.dat ≠ s.dat → i = .mov c x .dat) ∧
    (t.status ≠ s.status → t.active = false) ∧
    ((∀ q, t.status ≠ .blockedOnInput q) → (∀ d, t.status ≠ .blockedOnTime d) →
      t.active = s.active ∧ (t.pc ≠ s.pc → i = .jmp c target))

/-- R30: only an executed test writes the flags: a step that changes one is a `Reset`, or executes a test
in a cycle or directly. -/
def Obligations.OnlyTestsWriteFlags : Prop :=
  ∀ s t : State, step s = .next t →
    (t.plusAllowed ≠ s.plusAllowed ∨ t.minusAllowed ≠ s.minusAllowed) →
    (∃ rest, s.host = .reset :: rest) ∨
    ∃ c a b i,
      (i = Instr.teq c a b ∨ i = .tgt c a b ∨ i = .tlt c a b ∨ i = .tcp c a b) ∧
      ((FetchesInstr s i ∧ gate i.cond s = true) ∨
       ∃ w rest, s.host = .execDirect w :: rest ∧ decode w s.progLen = .ok i)

/-- R21: `ACC` is written by `MOV` to it and by the arithmetic and digit instructions only, `DAT` by `MOV`
to it only. -/
def Obligations.WritersOfAccAndDat : Prop :=
  ∀ (i : Instr) (s t : State), exec i s = .next t →
    (t.dat ≠ s.dat → ∃ c src, i = .mov c src .dat) ∧
    (t.acc ≠ s.acc →
      (∃ c src, i = .mov c src .acc) ∨ (∃ c x, i = .add c x ∨ i = .sub c x ∨ i = .mul c x ∨ i = .dgt c x)
        ∨ (∃ c, i = .not c) ∨ ∃ c x y, i = .dst c x y)

/-- R51: program memory changes only by the host's `LoadWord` on a stopped core, one slot at a time, and
its number of slots never (log 1). -/
def Obligations.OnlyLoadWordWritesProgramMemory : Prop :=
  ∀ s t : State, step s = .next t →
    t.mem.slots = s.mem.slots ∧
    (t.mem = s.mem ∨
      ∃ i w rest, s.host = .loadWord i w :: rest ∧ s.active = false ∧
        ∀ j, t.mem.read j = if j = i then some w else s.mem.read j)

/-! ## The ALU -/

/-- R100, R101: saturation clamps, is the identity in range, idempotent and monotone. -/
def Obligations.SaturationClampsAndIsMonotone : Prop :=
  (∀ x : Int, (x < -999 → sat x = -999) ∧ (999 < x → sat x = 999) ∧ (InRange x → sat x = x) ∧
    InRange (sat x) ∧ sat (sat x) = sat x) ∧
  ∀ x y : Int, x ≤ y → sat x ≤ sat y

/-- R105: the laws of the saturating operations. -/
def Obligations.SaturatingAluLaws : Prop :=
  (∀ a b : Int, aluAdd a b = aluAdd b a ∧ aluMul a b = aluMul b a) ∧
  (∀ a : Int, InRange a →
    aluAdd a 0 = a ∧ aluSub a 0 = a ∧ aluMul a 1 = a ∧ aluSub a a = 0 ∧ aluMul a (-1) = -a
      ∧ aluSub 0 a = -a) ∧
  aluSub (aluAdd 999 1) 1 = 998 ∧ aluAdd 999 (aluSub 1 1) = 999

/-- R108: `digit_at` is the decimal digit of the magnitude, always one digit, and 0 outside the three
places of a datum. -/
def Obligations.DigitAtIsDecimalDigit : Prop :=
  ∀ v i : Int,
    (0 ≤ i → digitAt v i = ((v.natAbs / 10 ^ i.toNat % 10 : Nat) : Int)) ∧
    0 ≤ digitAt v i ∧ digitAt v i ≤ 9 ∧ (i < 0 → digitAt v i = 0) ∧
    (InRange v → 3 ≤ i → digitAt v i = 0)

/-- R109: in the three places of a datum `set_digit_at` puts the digit there, keeps every other digit and
the sign, and never saturates. -/
def Obligations.SetDigitKeepsOtherDigits : Prop :=
  ∀ v i d : Int, InRange v → 0 ≤ i → i ≤ 2 → 0 ≤ d → d ≤ 9 →
    digitAt (setDigitAt v i d) i = d ∧
    (∀ j, 0 ≤ j → j ≤ 2 → j ≠ i → digitAt (setDigitAt v i d) j = digitAt v j) ∧
    (0 ≤ v → 0 ≤ setDigitAt v i d) ∧ (v < 0 → setDigitAt v i d ≤ 0) ∧
    (setDigitAt v i d).natAbs ≤ 999 ∧
    setDigitAt v i d
      = (if v < 0 then -1 else 1)
          * ((v.natAbs : Int) - digitAt v i * ((10 ^ i.toNat : Nat) : Int)
              + d * ((10 ^ i.toNat : Nat) : Int))

/-- R109: `set_digit_at` with a digit outside 0..9 uses the nearest digit, with a negative index changes
nothing, and at an index from 3 on changes nothing for the digit 0 and saturates for any other. -/
def Obligations.SetDigitOutsideThePlaces : Prop :=
  ∀ v i d : Int, InRange v →
    (d < 0 → setDigitAt v i d = setDigitAt v i 0) ∧ (9 < d → setDigitAt v i d = setDigitAt v i 9) ∧
    (i < 0 → setDigitAt v i d = v) ∧
    (3 ≤ i → d ≤ 0 → setDigitAt v i d = v) ∧
    (3 ≤ i → 1 ≤ d → setDigitAt v i d = if v < 0 then -999 else 999)

/-! ## Encoding -/

/-- R71 to R77: decoding the encoding of a well-formed instruction gives it back, with every operand, for
every program length that admits its jump target; for any other, `JMP_TARGET`. -/
def Obligations.DecodeOfEncode : Prop :=
  ∀ (i : Instr) (n : ProgLen), i.wf = true →
    decode (encode i) n = if i.targetOk n then .ok i else .error .jumpTarget

/-- R77: a legal word is the encoding of the instruction it decodes to, so no two legal words decode to
the same instruction, and what it decodes to is well formed. -/
def Obligations.EncodeOfDecode : Prop :=
  ∀ (w : Word) (n : ProgLen) (i : Instr), decode w n = .ok i →
    encode i = w ∧ i.wf = true ∧ i.targetOk n = true

/-- R78: a word is rejected exactly where one of the ten items applies, each said of the bits of the word
and the operand classes of R76. -/
def Obligations.IllegalWordsAreTheTenItems : Prop :=
  ∀ (w : Word) (n : ProgLen) (op : Nat) (a b : BitVec 12),
    op = (w.extractLsb' 0 4).toNat → a = w.extractLsb' 6 12 → b = w.extractLsb' 18 12 →
    let badLiteral (o : BitVec 12) : Prop :=
      o.getLsbD 11 = false ∧ ¬ InRange (o.extractLsb' 0 11).toInt
    let badRegister (o : BitVec 12) : Prop :=
      o.getLsbD 11 = true ∧ (o.extractLsb' 3 8 ≠ 0 ∨ o.extractLsb' 0 3 = 3)
    let badValue (o : BitVec 12) : Prop := badLiteral o ∨ badRegister o
    let badPin (o : BitVec 12) : Prop :=
      ¬ (o.getLsbD 11 = true ∧ o.extractLsb' 3 8 = 0 ∧ o.getLsbD 2 = true)
    (∃ e, decode w n = .error e) ↔
      w.extractLsb' 30 2 ≠ 0 ∨ op = 15 ∨ w.extractLsb' 4 2 = 3 ∨
      (op ∈ [0, 8] ∧ a ≠ 0) ∨ (op ∈ [0, 2, 3, 4, 5, 6, 7, 8, 9] ∧ b ≠ 0) ∨
      (op ∈ [1, 3, 5, 6, 7, 9, 10, 11, 12, 13, 14] ∧ badValue a) ∨
      (op ∈ [10, 11, 12, 13, 14] ∧ badValue b) ∨
      (op = 1 ∧ (b.getLsbD 11 = false ∨ badRegister b)) ∨
      (op = 4 ∧ badPin a) ∨ (op = 2 ∧ n.toNat ≤ a.toNat)

/-- R85: example words of the spec, at least one of every family, decode to the instructions they stand
for (with PROG_LEN 6). -/
def Obligations.ExampleWordsDecode : Prop :=
  decode 0x00000000 6 = .ok (.nop .regular) ∧
  decode 0x20041901 6 = .ok (.mov .regular (.lit 100) .dat) ∧
  decode 0x201E0181 6 = .ok (.mov .regular (.reg (.pin .x0)) (.pin .x1)) ∧
  decode 0x00000142 6 = .ok (.jmp .regular 5) ∧
  decode 0x00000022 6 = .ok (.jmp .minus 0) ∧
  decode 0x00000143 6 = .ok (.slp .regular (.lit 5)) ∧
  decode 0x00020184 6 = .ok (.slx .regular .x0) ∧
  decode 0x00000055 6 = .ok (.add .plus (.lit 1)) ∧
  decode 0x00010646 6 = .ok (.sub .regular (.lit (-999))) ∧
  decode 0x000000C7 6 = .ok (.mul .regular (.lit 3)) ∧
  decode 0x00000008 6 = .ok (.not .regular) ∧
  decode 0x00000049 6 = .ok (.dgt .regular (.lit 1)) ∧
  decode 0x0014000A 6 = .ok (.dst .regular (.lit 0) (.lit 5)) ∧
  decode 0x0F9E000B 6 = .ok (.teq .regular (.reg .acc) (.lit 999)) ∧
  decode 0x000A000C 6 = .ok (.tgt .regular (.reg .acc) (.lit 2)) ∧
  decode 0x0002004D 6 = .ok (.tlt .regular (.reg .dat) (.lit 0)) ∧
  decode 0x2006000E 6 = .ok (.tcp .regular (.reg .acc) (.reg .dat))

/-- R53: moved as bytes, a word is stored little-endian, byte 0 being bits [7:0]; reading the bytes back
gives the word. -/
def Obligations.WordBytesLittleEndian : Prop :=
  ∀ (w : Word) (n : ProgLen) (rest : List (BitVec 8)),
    (∀ k, k < 4 → (wordBytes w)[k]? = some (w.extractLsb' (8 * k) 8)) ∧
    wordOfBytes (wordBytes w) = some w ∧
    decodeBytes n (wordBytes w ++ rest) = some (decode w n, rest)
end

