-- ==== Sys2Proof/Laws/Alu.lean ====
section
/-! SUPPORT. The ALU primitives: ranges, closed forms and the small equations of each definition
(spec/40_bounded_integer.md). -/

namespace Sys2Proof.Machine

/-- The two bounds and the identity in range, in the form `omega` reads. -/
theorem sat_cases (x : Int) :
    (x < -999 ∧ sat x = -999) ∨ (999 < x ∧ sat x = 999) ∨ (-999 ≤ x ∧ x ≤ 999 ∧ sat x = x) := by
  unfold sat
  split
  · exact .inl ⟨by omega, rfl⟩
  · split
    · exact .inr (.inl ⟨by omega, rfl⟩)
    · exact .inr (.inr ⟨by omega, by omega, rfl⟩)

theorem sat_eq_clamp (x : Int) : sat x = max (-999) (min 999 x) := by
  rcases sat_cases x with h | h | h <;> omega

theorem sat_inRange (x : Int) : InRange (sat x) := by
  rcases sat_cases x with h | h | h <;> constructor <;> omega

theorem sat_of_inRange {x : Int} (h : InRange x) : sat x = x := by
  obtain ⟨h₁, h₂⟩ := h
  rcases sat_cases x with h | h | h <;> omega

theorem aluNot_inRange (a : Int) : InRange (aluNot a) := by
  unfold aluNot
  split <;> decide

/-- Dropping `i` digits is one division. -/
theorem dropDigits_eq (i m : Nat) : dropDigits i m = m / 10 ^ i := by
  induction i generalizing m with
  | zero => simp [dropDigits]
  | succ i ih => rw [dropDigits, ih, Nat.div_div_eq_div_mul, Nat.pow_succ, Nat.mul_comm]

/-- The digit by one division and one remainder. -/
theorem digitAt_eq {v i : Int} (h : 0 ≤ i) :
    digitAt v i = ((v.natAbs / 10 ^ i.toNat % 10 : Nat) : Int) := by
  rw [digitAt, if_neg (by omega), dropDigits_eq]

theorem digitAt_neg {v i : Int} (h : i < 0) : digitAt v i = 0 := if_pos h

theorem digitAt_digit (v i : Int) : 0 ≤ digitAt v i ∧ digitAt v i ≤ 9 := by
  unfold digitAt
  split <;> omega

theorem digitAt_inRange (v i : Int) : InRange (digitAt v i) := by
  have h := digitAt_digit v i
  constructor <;> omega

theorem clampDigit_digit (d : Int) : 0 ≤ clampDigit d ∧ clampDigit d ≤ 9 := by
  unfold clampDigit
  omega

theorem setDigitAt_neg {v i d : Int} (h : i < 0) : setDigitAt v i d = v := if_pos h

theorem setDigitAt_nonneg {v i d : Int} (h : 0 ≤ i) :
    setDigitAt v i d = sat (signOf v * replaceDigit (v.natAbs : Int) i (clampDigit d)) :=
  if_neg (by omega)

theorem setDigitAt_inRange {v : Int} (i d : Int) (h : InRange v) : InRange (setDigitAt v i d) := by
  by_cases hi : i < 0
  · rw [setDigitAt_neg hi]; exact h
  · rw [setDigitAt_nonneg (by omega)]; exact sat_inRange _

theorem placeValue_eq (i : Int) : placeValue i = ((10 ^ i.toNat : Nat) : Int) := rfl

end Sys2Proof.Machine
end

