-- ==== Sys2Proof/Laws/Decode.lean ====
section
/-! SUPPORT. The fields of an encoded word, and what each field decoder accepts
(spec/30_encoding.md R71 to R78). -/

namespace Sys2Proof

/-! The fields of `wordOf`. -/

theorem wordOf_toNat (op : BitVec 4) (c : Cond) (a b : Field) :
    (wordOf op c a b).toNat
      = b.toNat * 2 ^ 18 + a.toNat * 2 ^ 6 + (encodeCond c).toNat * 2 ^ 4 + op.toNat := by
  have h₁ := op.isLt
  have h₂ := (encodeCond c).isLt
  have h₃ := a.isLt
  simp only [wordOf, BitVec.toNat_append, BitVec.toNat_ofNat]
  rw [← Nat.shiftLeft_add_eq_or_of_lt h₁, ← Nat.shiftLeft_add_eq_or_of_lt h₂,
    ← Nat.shiftLeft_add_eq_or_of_lt h₃, ← Nat.shiftLeft_add_eq_or_of_lt b.isLt]
  simp only [Nat.shiftLeft_eq]
  omega

@[simp] theorem opField_wordOf (op : BitVec 4) (c : Cond) (a b : Field) :
    opField (wordOf op c a b) = op := by
  have h₁ := op.isLt
  apply BitVec.eq_of_toNat_eq
  simp only [opField, BitVec.extractLsb'_toNat, wordOf_toNat, Nat.shiftRight_eq_div_pow]
  omega

@[simp] theorem condField_wordOf (op : BitVec 4) (c : Cond) (a b : Field) :
    condField (wordOf op c a b) = encodeCond c := by
  have h₁ := op.isLt
  have h₂ := (encodeCond c).isLt
  apply BitVec.eq_of_toNat_eq
  simp only [condField, BitVec.extractLsb'_toNat, wordOf_toNat, Nat.shiftRight_eq_div_pow]
  omega

@[simp] theorem aField_wordOf (op : BitVec 4) (c : Cond) (a b : Field) :
    aField (wordOf op c a b) = a := by
  have h₁ := op.isLt
  have h₂ := (encodeCond c).isLt
  have h₃ := a.isLt
  apply BitVec.eq_of_toNat_eq
  simp only [aField, BitVec.extractLsb'_toNat, wordOf_toNat, Nat.shiftRight_eq_div_pow]
  omega

@[simp] theorem bField_wordOf (op : BitVec 4) (c : Cond) (a b : Field) :
    bField (wordOf op c a b) = b := by
  have h₁ := op.isLt
  have h₂ := (encodeCond c).isLt
  have h₃ := a.isLt
  have h₄ := b.isLt
  apply BitVec.eq_of_toNat_eq
  simp only [bField, BitVec.extractLsb'_toNat, wordOf_toNat, Nat.shiftRight_eq_div_pow]
  omega

@[simp] theorem resField_wordOf (op : BitVec 4) (c : Cond) (a b : Field) :
    resField (wordOf op c a b) = 0 := by
  have h₁ := op.isLt
  have h₂ := (encodeCond c).isLt
  have h₃ := a.isLt
  have h₄ := b.isLt
  apply BitVec.eq_of_toNat_eq
  simp only [resField, BitVec.extractLsb'_toNat, wordOf_toNat, Nat.shiftRight_eq_div_pow]
  change _ = 0
  omega

/-- A word is its fields. -/
theorem word_eq_of_fields {w w' : Word} (ho : opField w = opField w') (hc : condField w = condField w')
    (ha : aField w = aField w') (hb : bField w = bField w') (hr : resField w = resField w') :
    w = w' := by
  apply BitVec.eq_of_toNat_eq
  have hw := w.isLt
  have hw' := w'.isLt
  have ho := congrArg BitVec.toNat ho
  have hc := congrArg BitVec.toNat hc
  have ha := congrArg BitVec.toNat ha
  have hb := congrArg BitVec.toNat hb
  have hr := congrArg BitVec.toNat hr
  simp only [opField, condField, aField, bField, resField, BitVec.extractLsb'_toNat,
    Nat.shiftRight_eq_div_pow] at ho hc ha hb hr
  omega

/-! The operand fields. -/

@[simp] theorem decodeCond_encodeCond (c : Cond) : decodeCond (encodeCond c) = .ok c := by
  cases c <;> rfl

theorem encodeRegister_parts (r : Reg) :
    formBit (encodeRegister r) = true ∧ paddingBits (encodeRegister r) = 0
      ∧ registerCode (encodeRegister r) = encodeRegisterCode r := by
  rcases r with _ | _ | _ | (_ | _ | _ | _) <;> decide

@[simp] theorem decodeRegister_encodeRegister (r : Reg) :
    decodeRegister (encodeRegister r) = .ok r := by
  rcases r with _ | _ | _ | (_ | _ | _ | _) <;> decide

@[simp] theorem decodeDestination_encodeRegister (r : Reg) :
    decodeDestination (encodeRegister r) = .ok r := by
  rw [decodeDestination, (encodeRegister_parts r).1, if_pos rfl, decodeRegister_encodeRegister]

@[simp] theorem decodePin_encodeRegister (p : Pin) :
    decodePin (encodeRegister (.pin p)) = .ok p := by
  cases p <;> decide

theorem literalBits_encodeLiteral (v : Int) : literalBits (encodeLiteral v) = BitVec.ofInt 11 v := by
  have h := (BitVec.ofInt 11 v).isLt
  apply BitVec.eq_of_toNat_eq
  simp only [literalBits, encodeLiteral, BitVec.extractLsb'_toNat, BitVec.toNat_append,
    Nat.shiftRight_zero, BitVec.toNat_ofNat]
  rw [← Nat.shiftLeft_add_eq_or_of_lt h, Nat.shiftLeft_eq]
  omega

theorem formBit_encodeLiteral (v : Int) : formBit (encodeLiteral v) = false := by
  rw [formBit, encodeLiteral, BitVec.getLsbD_append]
  rfl

theorem decodeLiteral_encodeLiteral {v : Int} (h : InRange v) :
    decodeLiteral (encodeLiteral v) = .ok v := by
  have hv : (BitVec.ofInt 11 v).toInt = v := by
    rw [BitVec.toInt_ofInt]
    obtain ⟨h₁, h₂⟩ := h
    exact Int.bmod_eq_of_le (by omega) (by omega)
  simp only [decodeLiteral, literalBits_encodeLiteral, hv, if_pos h]

theorem decodeValue_encodeOperand {o : Operand} (h : o.wf = true) :
    decodeValue (encodeOperand o) = .ok o := by
  cases o with
  | lit v =>
    have hv : InRange v := by simpa [Operand.wf] using h
    simp [decodeValue, encodeOperand, formBit_encodeLiteral, decodeLiteral_encodeLiteral hv, Except.map]
  | reg r =>
    simp [decodeValue, encodeOperand, (encodeRegister_parts r).1, Except.map]

/-! What the field decoders accept. -/

theorem decodeCond_ok {b : BitVec 2} {c : Cond} (h : decodeCond b = .ok c) : b = encodeCond c := by
  revert h
  revert b
  cases c <;> decide

theorem decodeRegisterCode_ok {b : BitVec 3} {r : Reg} (h : decodeRegisterCode b = .ok r) :
    b = encodeRegisterCode r := by
  revert h
  revert b
  rcases r with _ | _ | _ | (_ | _ | _ | _) <;> decide

theorem field_eq_of_register_parts {o o' : Field} (hf : formBit o = formBit o')
    (hp : paddingBits o = paddingBits o') (hc : registerCode o = registerCode o') : o = o' := by
  have ho := o.isLt
  have ho' := o'.isLt
  have hf : o.toNat / 2 ^ 11 % 2 = o'.toNat / 2 ^ 11 % 2 := by
    simp only [formBit, BitVec.getLsbD, Nat.testBit_eq_decide_div_mod_eq, decide_eq_decide] at hf
    omega
  have hp := congrArg BitVec.toNat hp
  have hc := congrArg BitVec.toNat hc
  simp only [paddingBits, registerCode, BitVec.extractLsb'_toNat, Nat.shiftRight_eq_div_pow] at hp hc
  apply BitVec.eq_of_toNat_eq
  omega

theorem field_eq_of_literal_parts {o o' : Field} (hf : formBit o = formBit o')
    (hl : literalBits o = literalBits o') : o = o' := by
  have ho := o.isLt
  have ho' := o'.isLt
  have hf : o.toNat / 2 ^ 11 % 2 = o'.toNat / 2 ^ 11 % 2 := by
    simp only [formBit, BitVec.getLsbD, Nat.testBit_eq_decide_div_mod_eq, decide_eq_decide] at hf
    omega
  have hl := congrArg BitVec.toNat hl
  simp only [literalBits, BitVec.extractLsb'_toNat, Nat.shiftRight_eq_div_pow] at hl
  apply BitVec.eq_of_toNat_eq
  omega

theorem decodeRegister_ok {o : Field} {r : Reg} (hf : formBit o = true)
    (h : decodeRegister o = .ok r) : o = encodeRegister r := by
  unfold decodeRegister at h
  split at h
  · rename_i hp
    obtain ⟨h₁, h₂, h₃⟩ := encodeRegister_parts r
    exact field_eq_of_register_parts (hf.trans h₁.symm) (hp.trans h₂.symm)
      ((decodeRegisterCode_ok h).trans h₃.symm)
  · cases h

theorem decodeLiteral_ok {o : Field} {v : Int} (hf : formBit o = false)
    (h : decodeLiteral o = .ok v) : o = encodeLiteral v ∧ InRange v := by
  simp only [decodeLiteral] at h
  split at h
  · rename_i hv
    cases h
    refine ⟨field_eq_of_literal_parts (hf.trans (formBit_encodeLiteral _).symm) ?_, hv⟩
    rw [literalBits_encodeLiteral, BitVec.ofInt_toInt]
  · cases h

theorem decodeValue_ok {o : Field} {x : Operand} (h : decodeValue o = .ok x) :
    o = encodeOperand x ∧ x.wf = true := by
  unfold decodeValue at h
  split at h
  · rename_i hf
    cases hr : decodeRegister o with
    | error e => rw [hr] at h; cases h
    | ok r => rw [hr] at h; cases h; exact ⟨decodeRegister_ok hf hr, rfl⟩
  · rename_i hf
    have hf : formBit o = false := by simpa using hf
    cases hl : decodeLiteral o with
    | error e => rw [hl] at h; cases h
    | ok v =>
      rw [hl] at h; cases h
      obtain ⟨h₁, h₂⟩ := decodeLiteral_ok hf hl
      exact ⟨h₁, by simpa [Operand.wf] using h₂⟩

theorem decodeDestination_ok {o : Field} {r : Reg} (h : decodeDestination o = .ok r) :
    o = encodeRegister r := by
  unfold decodeDestination at h
  split at h
  · rename_i hf; exact decodeRegister_ok hf h
  · cases h

theorem decodePin_ok {o : Field} {p : Pin} (h : decodePin o = .ok p) :
    o = encodeRegister (.pin p) := by
  unfold decodePin at h
  split at h
  · rename_i hf
    cases hr : decodeRegister o with
    | error e => rw [hr] at h; cases h
    | ok r =>
      rw [hr] at h
      cases r with
      | pin q => cases h; exact decodeRegister_ok hf hr
      | acc => cases h
      | dat => cases h
      | null => cases h
  · cases h

theorem decodeUnused_ok {o : Field} {u : Unit} (h : decodeUnused o = .ok u) : o = 0 := by
  unfold decodeUnused at h
  split at h
  · assumption
  · cases h

/-! The operand shapes. -/

theorem bind_ok {ε α β : Type} {x : Except ε α} {f : α → Except ε β} {b : β}
    (h : x.bind f = .ok b) : ∃ a, x = .ok a ∧ f a = .ok b := by
  cases x with
  | error e => cases h
  | ok a => exact ⟨a, rfl, h⟩

theorem decodeV_ok {mk : Operand → Instr} {a b : Field} {i : Instr} (h : decodeV mk a b = .ok i) :
    ∃ x, i = mk x ∧ a = encodeOperand x ∧ x.wf = true ∧ b = 0 := by
  obtain ⟨x, hx, h⟩ := bind_ok h
  obtain ⟨u, hu, h⟩ := bind_ok h
  cases h
  obtain ⟨h₁, h₂⟩ := decodeValue_ok hx
  exact ⟨x, rfl, h₁, h₂, decodeUnused_ok hu⟩

theorem decodeVV_ok {mk : Operand → Operand → Instr} {a b : Field} {i : Instr}
    (h : decodeVV mk a b = .ok i) :
    ∃ x y, i = mk x y ∧ a = encodeOperand x ∧ x.wf = true ∧ b = encodeOperand y ∧ y.wf = true := by
  obtain ⟨x, hx, h⟩ := bind_ok h
  obtain ⟨y, hy, h⟩ := bind_ok h
  cases h
  obtain ⟨h₁, h₂⟩ := decodeValue_ok hx
  obtain ⟨h₃, h₄⟩ := decodeValue_ok hy
  exact ⟨x, y, rfl, h₁, h₂, h₃, h₄⟩

theorem decodeZZ_ok {i j : Instr} {a b : Field} (h : decodeZZ i a b = .ok j) :
    j = i ∧ a = 0 ∧ b = 0 := by
  obtain ⟨u, hu, h⟩ := bind_ok h
  obtain ⟨v, hv, h⟩ := bind_ok h
  cases h
  exact ⟨rfl, decodeUnused_ok hu, decodeUnused_ok hv⟩

theorem decodeVD_ok {mk : Operand → Reg → Instr} {a b : Field} {i : Instr}
    (h : decodeVD mk a b = .ok i) :
    ∃ x r, i = mk x r ∧ a = encodeOperand x ∧ x.wf = true ∧ b = encodeRegister r := by
  obtain ⟨x, hx, h⟩ := bind_ok h
  obtain ⟨r, hr, h⟩ := bind_ok h
  cases h
  obtain ⟨h₁, h₂⟩ := decodeValue_ok hx
  exact ⟨x, r, rfl, h₁, h₂, decodeDestination_ok hr⟩

theorem decodeT_ok {mk : Slot → Instr} {a b : Field} {i : Instr} (h : decodeT mk a b = .ok i) :
    i = mk a ∧ b = 0 := by
  obtain ⟨u, hu, h⟩ := bind_ok h
  cases h
  exact ⟨rfl, decodeUnused_ok hu⟩

theorem decodeP_ok {mk : Pin → Instr} {a b : Field} {i : Instr} (h : decodeP mk a b = .ok i) :
    ∃ p, i = mk p ∧ a = encodeRegister (.pin p) ∧ b = 0 := by
  obtain ⟨p, hp, h⟩ := bind_ok h
  obtain ⟨u, hu, h⟩ := bind_ok h
  cases h
  exact ⟨p, rfl, decodePin_ok hp, decodeUnused_ok hu⟩

/-- What a legal decode says: the fields decoded, and a jump target below the program length. -/
theorem decode_ok {w : Word} {n : ProgLen} {i : Instr} (h : decode w n = .ok i) :
    decodeFields w = .ok i ∧ i.targetOk n = true := by
  unfold decode at h
  split at h
  · split at h
    · cases h; exact ⟨by assumption, by assumption⟩
    · cases h
  · cases h

/-- What a decoding of the fields says about them. -/
theorem decodeFields_ok {w : Word} {i : Instr} (h : decodeFields w = .ok i) :
    resField w = 0 ∧ opField w ≠ 15 ∧
      ∃ c, condField w = encodeCond c ∧ decodeOp (opField w) c (aField w) (bField w) = .ok i := by
  unfold decodeFields at h
  split at h
  · cases h
  · rename_i hr
    split at h
    · cases h
    · rename_i ho
      obtain ⟨c, hc, h⟩ := bind_ok h
      exact ⟨by simpa using hr, ho, c, decodeCond_ok hc, h⟩

/-- The decoder on a word put together from an opcode below 15, a qualifier and two fields. -/
theorem decodeFields_wordOf {op : BitVec 4} (h : op ≠ 15) (c : Cond) (a b : Field) :
    decodeFields (wordOf op c a b) = decodeOp op c a b := by
  simp only [decodeFields, resField_wordOf, opField_wordOf, condField_wordOf, aField_wordOf,
    bField_wordOf, decodeCond_encodeCond, h, ne_eq, not_true_eq_false, if_false]
  rfl

/-- Every instruction a word decodes to is well formed. -/
theorem decodeOp_wf {op : BitVec 4} {c : Cond} {a b : Field} {i : Instr}
    (h : decodeOp op c a b = .ok i) : i.wf = true := by
  unfold decodeOp at h
  split at h
  · obtain ⟨rfl, -⟩ := decodeZZ_ok h; rfl
  · obtain ⟨x, r, rfl, -, hx, -⟩ := decodeVD_ok h; exact hx
  · obtain ⟨rfl, -⟩ := decodeT_ok h; rfl
  · obtain ⟨x, rfl, -, hx, -⟩ := decodeV_ok h; exact hx
  · obtain ⟨p, rfl, -⟩ := decodeP_ok h; rfl
  · obtain ⟨x, rfl, -, hx, -⟩ := decodeV_ok h; exact hx
  · obtain ⟨x, rfl, -, hx, -⟩ := decodeV_ok h; exact hx
  · obtain ⟨x, rfl, -, hx, -⟩ := decodeV_ok h; exact hx
  · obtain ⟨rfl, -⟩ := decodeZZ_ok h; rfl
  · obtain ⟨x, rfl, -, hx, -⟩ := decodeV_ok h; exact hx
  · obtain ⟨x, y, rfl, -, hx, -, hy⟩ := decodeVV_ok h; simp [Instr.wf, hx, hy]
  · obtain ⟨x, y, rfl, -, hx, -, hy⟩ := decodeVV_ok h; simp [Instr.wf, hx, hy]
  · obtain ⟨x, y, rfl, -, hx, -, hy⟩ := decodeVV_ok h; simp [Instr.wf, hx, hy]
  · obtain ⟨x, y, rfl, -, hx, -, hy⟩ := decodeVV_ok h; simp [Instr.wf, hx, hy]
  · obtain ⟨x, y, rfl, -, hx, -, hy⟩ := decodeVV_ok h; simp [Instr.wf, hx, hy]
  · cases h

theorem decode_wf {w : Word} {n : ProgLen} {i : Instr} (h : decode w n = .ok i) : i.wf = true := by
  obtain ⟨-, -, c, -, h⟩ := decodeFields_ok (decode_ok h).1
  exact decodeOp_wf h

end Sys2Proof
end

