-- ==== Sys2Proof/Laws/State.lean ====
section
/-! SUPPORT. What each named update of the state leaves in each field: one lemma per field per update,
true by `rfl`. -/

namespace Sys2Proof.Machine

open Sys2Proof

/-! `block`. -/

@[simp] theorem block_pc (st : Status) (s : State) : (block st s).pc = s.pc := rfl
@[simp] theorem block_ipc (st : Status) (s : State) : (block st s).ipc = s.ipc := rfl
@[simp] theorem block_acc (st : Status) (s : State) : (block st s).acc = s.acc := rfl
@[simp] theorem block_dat (st : Status) (s : State) : (block st s).dat = s.dat := rfl
@[simp] theorem block_plusAllowed (st : Status) (s : State) : (block st s).plusAllowed = s.plusAllowed := rfl
@[simp] theorem block_minusAllowed (st : Status) (s : State) : (block st s).minusAllowed = s.minusAllowed := rfl
@[simp] theorem block_status (st : Status) (s : State) : (block st s).status = st := rfl
@[simp] theorem block_active (st : Status) (s : State) : (block st s).active = false := rfl
@[simp] theorem block_faultCode (st : Status) (s : State) : (block st s).faultCode = s.faultCode := rfl
@[simp] theorem block_faultPc (st : Status) (s : State) : (block st s).faultPc = s.faultPc := rfl
@[simp] theorem block_progLen (st : Status) (s : State) : (block st s).progLen = s.progLen := rfl
@[simp] theorem block_mem (st : Status) (s : State) : (block st s).mem = s.mem := rfl
@[simp] theorem block_pins (st : Status) (s : State) : (block st s).pins = s.pins := rfl
@[simp] theorem block_host (st : Status) (s : State) : (block st s).host = s.host := rfl
@[simp] theorem block_reply (st : Status) (s : State) : (block st s).reply = s.reply := rfl

/-! `retry`. -/

@[simp] theorem retry_pc (p : Pin) (s : State) : (retry p s).pc = s.ipc := rfl
@[simp] theorem retry_ipc (p : Pin) (s : State) : (retry p s).ipc = s.ipc := rfl
@[simp] theorem retry_acc (p : Pin) (s : State) : (retry p s).acc = s.acc := rfl
@[simp] theorem retry_dat (p : Pin) (s : State) : (retry p s).dat = s.dat := rfl
@[simp] theorem retry_plusAllowed (p : Pin) (s : State) : (retry p s).plusAllowed = s.plusAllowed := rfl
@[simp] theorem retry_minusAllowed (p : Pin) (s : State) : (retry p s).minusAllowed = s.minusAllowed := rfl
@[simp] theorem retry_status (p : Pin) (s : State) : (retry p s).status = .blockedOnInput p := rfl
@[simp] theorem retry_active (p : Pin) (s : State) : (retry p s).active = false := rfl
@[simp] theorem retry_faultCode (p : Pin) (s : State) : (retry p s).faultCode = s.faultCode := rfl
@[simp] theorem retry_faultPc (p : Pin) (s : State) : (retry p s).faultPc = s.faultPc := rfl
@[simp] theorem retry_progLen (p : Pin) (s : State) : (retry p s).progLen = s.progLen := rfl
@[simp] theorem retry_mem (p : Pin) (s : State) : (retry p s).mem = s.mem := rfl
@[simp] theorem retry_pins (p : Pin) (s : State) : (retry p s).pins = s.pins := rfl
@[simp] theorem retry_host (p : Pin) (s : State) : (retry p s).host = s.host := rfl
@[simp] theorem retry_reply (p : Pin) (s : State) : (retry p s).reply = s.reply := rfl

/-! `raiseFault`. -/

@[simp] theorem raiseFault_pc (c : FaultCode) (s : State) : (raiseFault c s).pc = s.pc := rfl
@[simp] theorem raiseFault_ipc (c : FaultCode) (s : State) : (raiseFault c s).ipc = s.ipc := rfl
@[simp] theorem raiseFault_acc (c : FaultCode) (s : State) : (raiseFault c s).acc = s.acc := rfl
@[simp] theorem raiseFault_dat (c : FaultCode) (s : State) : (raiseFault c s).dat = s.dat := rfl
@[simp] theorem raiseFault_plusAllowed (c : FaultCode) (s : State) : (raiseFault c s).plusAllowed = s.plusAllowed := rfl
@[simp] theorem raiseFault_minusAllowed (c : FaultCode) (s : State) : (raiseFault c s).minusAllowed = s.minusAllowed := rfl
@[simp] theorem raiseFault_status (c : FaultCode) (s : State) : (raiseFault c s).status = .faulted := rfl
@[simp] theorem raiseFault_active (c : FaultCode) (s : State) : (raiseFault c s).active = false := rfl
@[simp] theorem raiseFault_faultCode (c : FaultCode) (s : State) : (raiseFault c s).faultCode = some c := rfl
@[simp] theorem raiseFault_faultPc (c : FaultCode) (s : State) : (raiseFault c s).faultPc = s.pc := rfl
@[simp] theorem raiseFault_progLen (c : FaultCode) (s : State) : (raiseFault c s).progLen = s.progLen := rfl
@[simp] theorem raiseFault_mem (c : FaultCode) (s : State) : (raiseFault c s).mem = s.mem := rfl
@[simp] theorem raiseFault_pins (c : FaultCode) (s : State) : (raiseFault c s).pins = s.pins := rfl
@[simp] theorem raiseFault_host (c : FaultCode) (s : State) : (raiseFault c s).host = s.host := rfl
@[simp] theorem raiseFault_reply (c : FaultCode) (s : State) : (raiseFault c s).reply = s.reply := rfl

/-! `setFlags`. -/

@[simp] theorem setFlags_pc (f : AllowFlags) (s : State) : (setFlags f s).pc = s.pc := rfl
@[simp] theorem setFlags_ipc (f : AllowFlags) (s : State) : (setFlags f s).ipc = s.ipc := rfl
@[simp] theorem setFlags_acc (f : AllowFlags) (s : State) : (setFlags f s).acc = s.acc := rfl
@[simp] theorem setFlags_dat (f : AllowFlags) (s : State) : (setFlags f s).dat = s.dat := rfl
@[simp] theorem setFlags_plusAllowed (f : AllowFlags) (s : State) : (setFlags f s).plusAllowed = f.plus := rfl
@[simp] theorem setFlags_minusAllowed (f : AllowFlags) (s : State) : (setFlags f s).minusAllowed = f.minus := rfl
@[simp] theorem setFlags_status (f : AllowFlags) (s : State) : (setFlags f s).status = s.status := rfl
@[simp] theorem setFlags_active (f : AllowFlags) (s : State) : (setFlags f s).active = s.active := rfl
@[simp] theorem setFlags_faultCode (f : AllowFlags) (s : State) : (setFlags f s).faultCode = s.faultCode := rfl
@[simp] theorem setFlags_faultPc (f : AllowFlags) (s : State) : (setFlags f s).faultPc = s.faultPc := rfl
@[simp] theorem setFlags_progLen (f : AllowFlags) (s : State) : (setFlags f s).progLen = s.progLen := rfl
@[simp] theorem setFlags_mem (f : AllowFlags) (s : State) : (setFlags f s).mem = s.mem := rfl
@[simp] theorem setFlags_pins (f : AllowFlags) (s : State) : (setFlags f s).pins = s.pins := rfl
@[simp] theorem setFlags_host (f : AllowFlags) (s : State) : (setFlags f s).host = s.host := rfl
@[simp] theorem setFlags_reply (f : AllowFlags) (s : State) : (setFlags f s).reply = s.reply := rfl

/-! `pinWrite`. -/

@[simp] theorem pinWrite_pc (p : Pin) (v : Int) (s : State) : (pinWrite p v s).pc = s.pc := rfl
@[simp] theorem pinWrite_ipc (p : Pin) (v : Int) (s : State) : (pinWrite p v s).ipc = s.ipc := rfl
@[simp] theorem pinWrite_acc (p : Pin) (v : Int) (s : State) : (pinWrite p v s).acc = s.acc := rfl
@[simp] theorem pinWrite_dat (p : Pin) (v : Int) (s : State) : (pinWrite p v s).dat = s.dat := rfl
@[simp] theorem pinWrite_plusAllowed (p : Pin) (v : Int) (s : State) : (pinWrite p v s).plusAllowed = s.plusAllowed := rfl
@[simp] theorem pinWrite_minusAllowed (p : Pin) (v : Int) (s : State) : (pinWrite p v s).minusAllowed = s.minusAllowed := rfl
@[simp] theorem pinWrite_status (p : Pin) (v : Int) (s : State) : (pinWrite p v s).status = s.status := rfl
@[simp] theorem pinWrite_active (p : Pin) (v : Int) (s : State) : (pinWrite p v s).active = s.active := rfl
@[simp] theorem pinWrite_faultCode (p : Pin) (v : Int) (s : State) : (pinWrite p v s).faultCode = s.faultCode := rfl
@[simp] theorem pinWrite_faultPc (p : Pin) (v : Int) (s : State) : (pinWrite p v s).faultPc = s.faultPc := rfl
@[simp] theorem pinWrite_progLen (p : Pin) (v : Int) (s : State) : (pinWrite p v s).progLen = s.progLen := rfl
@[simp] theorem pinWrite_mem (p : Pin) (v : Int) (s : State) : (pinWrite p v s).mem = s.mem := rfl
@[simp] theorem pinWrite_pins (p : Pin) (v : Int) (s : State) : (pinWrite p v s).pins = s.pins.afterWrite p v := rfl
@[simp] theorem pinWrite_host (p : Pin) (v : Int) (s : State) : (pinWrite p v s).host = s.host := rfl
@[simp] theorem pinWrite_reply (p : Pin) (v : Int) (s : State) : (pinWrite p v s).reply = s.reply := rfl

/-! `latchFetch`. -/

@[simp] theorem latchFetch_pc (s : State) : (latchFetch s).pc = s.pc := rfl
@[simp] theorem latchFetch_ipc (s : State) : (latchFetch s).ipc = s.pc := rfl
@[simp] theorem latchFetch_acc (s : State) : (latchFetch s).acc = s.acc := rfl
@[simp] theorem latchFetch_dat (s : State) : (latchFetch s).dat = s.dat := rfl
@[simp] theorem latchFetch_plusAllowed (s : State) : (latchFetch s).plusAllowed = s.plusAllowed := rfl
@[simp] theorem latchFetch_minusAllowed (s : State) : (latchFetch s).minusAllowed = s.minusAllowed := rfl
@[simp] theorem latchFetch_status (s : State) : (latchFetch s).status = s.status := rfl
@[simp] theorem latchFetch_active (s : State) : (latchFetch s).active = s.active := rfl
@[simp] theorem latchFetch_faultCode (s : State) : (latchFetch s).faultCode = s.faultCode := rfl
@[simp] theorem latchFetch_faultPc (s : State) : (latchFetch s).faultPc = s.faultPc := rfl
@[simp] theorem latchFetch_progLen (s : State) : (latchFetch s).progLen = s.progLen := rfl
@[simp] theorem latchFetch_mem (s : State) : (latchFetch s).mem = s.mem := rfl
@[simp] theorem latchFetch_pins (s : State) : (latchFetch s).pins = s.pins := rfl
@[simp] theorem latchFetch_host (s : State) : (latchFetch s).host = s.host := rfl
@[simp] theorem latchFetch_reply (s : State) : (latchFetch s).reply = s.reply := rfl

/-! `advance`. -/

@[simp] theorem advance_pc (s : State) : (advance s).pc = nextPc s.pc s.progLen := rfl
@[simp] theorem advance_ipc (s : State) : (advance s).ipc = s.ipc := rfl
@[simp] theorem advance_acc (s : State) : (advance s).acc = s.acc := rfl
@[simp] theorem advance_dat (s : State) : (advance s).dat = s.dat := rfl
@[simp] theorem advance_plusAllowed (s : State) : (advance s).plusAllowed = s.plusAllowed := rfl
@[simp] theorem advance_minusAllowed (s : State) : (advance s).minusAllowed = s.minusAllowed := rfl
@[simp] theorem advance_status (s : State) : (advance s).status = s.status := rfl
@[simp] theorem advance_active (s : State) : (advance s).active = s.active := rfl
@[simp] theorem advance_faultCode (s : State) : (advance s).faultCode = s.faultCode := rfl
@[simp] theorem advance_faultPc (s : State) : (advance s).faultPc = s.faultPc := rfl
@[simp] theorem advance_progLen (s : State) : (advance s).progLen = s.progLen := rfl
@[simp] theorem advance_mem (s : State) : (advance s).mem = s.mem := rfl
@[simp] theorem advance_pins (s : State) : (advance s).pins = s.pins := rfl
@[simp] theorem advance_host (s : State) : (advance s).host = s.host := rfl
@[simp] theorem advance_reply (s : State) : (advance s).reply = s.reply := rfl

/-! `resetCore`. -/

@[simp] theorem resetCore_pc (s : State) : (resetCore s).pc = 0 := rfl
@[simp] theorem resetCore_ipc (s : State) : (resetCore s).ipc = 0 := rfl
@[simp] theorem resetCore_acc (s : State) : (resetCore s).acc = 0 := rfl
@[simp] theorem resetCore_dat (s : State) : (resetCore s).dat = 0 := rfl
@[simp] theorem resetCore_plusAllowed (s : State) : (resetCore s).plusAllowed = true := rfl
@[simp] theorem resetCore_minusAllowed (s : State) : (resetCore s).minusAllowed = true := rfl
@[simp] theorem resetCore_status (s : State) : (resetCore s).status = .notBlocked := rfl
@[simp] theorem resetCore_active (s : State) : (resetCore s).active = false := rfl
@[simp] theorem resetCore_faultCode (s : State) : (resetCore s).faultCode = none := rfl
@[simp] theorem resetCore_faultPc (s : State) : (resetCore s).faultPc = 0 := rfl
@[simp] theorem resetCore_progLen (s : State) : (resetCore s).progLen = s.progLen := rfl
@[simp] theorem resetCore_mem (s : State) : (resetCore s).mem = s.mem := rfl
@[simp] theorem resetCore_pins (s : State) : (resetCore s).pins = s.pins := rfl
@[simp] theorem resetCore_host (s : State) : (resetCore s).host = s.host := rfl
@[simp] theorem resetCore_reply (s : State) : (resetCore s).reply = s.reply := rfl

/-! `hostReadReg`. -/

@[simp] theorem hostReadReg_pc (h : HostReg) (s : State) : (hostReadReg h s).pc = s.pc := rfl
@[simp] theorem hostReadReg_ipc (h : HostReg) (s : State) : (hostReadReg h s).ipc = s.ipc := rfl
@[simp] theorem hostReadReg_acc (h : HostReg) (s : State) : (hostReadReg h s).acc = s.acc := rfl
@[simp] theorem hostReadReg_dat (h : HostReg) (s : State) : (hostReadReg h s).dat = s.dat := rfl
@[simp] theorem hostReadReg_plusAllowed (h : HostReg) (s : State) : (hostReadReg h s).plusAllowed = s.plusAllowed := rfl
@[simp] theorem hostReadReg_minusAllowed (h : HostReg) (s : State) : (hostReadReg h s).minusAllowed = s.minusAllowed := rfl
@[simp] theorem hostReadReg_status (h : HostReg) (s : State) : (hostReadReg h s).status = s.status := rfl
@[simp] theorem hostReadReg_active (h : HostReg) (s : State) : (hostReadReg h s).active = s.active := rfl
@[simp] theorem hostReadReg_faultCode (h : HostReg) (s : State) : (hostReadReg h s).faultCode = s.faultCode := rfl
@[simp] theorem hostReadReg_faultPc (h : HostReg) (s : State) : (hostReadReg h s).faultPc = s.faultPc := rfl
@[simp] theorem hostReadReg_progLen (h : HostReg) (s : State) : (hostReadReg h s).progLen = s.progLen := rfl
@[simp] theorem hostReadReg_mem (h : HostReg) (s : State) : (hostReadReg h s).mem = s.mem := rfl
@[simp] theorem hostReadReg_pins (h : HostReg) (s : State) : (hostReadReg h s).pins = s.pins := rfl
@[simp] theorem hostReadReg_host (h : HostReg) (s : State) : (hostReadReg h s).host = s.host := rfl
@[simp] theorem hostReadReg_reply (h : HostReg) (s : State) : (hostReadReg h s).reply = some (readHostReg h s) := rfl

end Sys2Proof.Machine
end

