-- ==== Sys2Proof/Laws/Operands.lean ====
section
/-! SUPPORT. What resolving operands and writing registers can do: one lemma for each operation, which
later proofs cite instead of unfolding it (spec/10_state.md R24 to R27; spec/20_memory.md R55 to R59). -/

namespace Sys2Proof.Machine

/-! The pin port. -/

@[simp] theorem PinPort.afterRead_provider (q : PinPort) (p : Pin) :
    (q.afterRead p).provider = q.provider := by
  unfold PinPort.afterRead; split <;> rfl

@[simp] theorem PinPort.afterRead_readConsumes (q : PinPort) (p : Pin) :
    (q.afterRead p).readConsumes = q.readConsumes := by
  unfold PinPort.afterRead; split <;> rfl

@[simp] theorem PinPort.afterRead_log (q : PinPort) (p : Pin) :
    (q.afterRead p).log = q.log ++ [.read p (q.answer p)] := by
  unfold PinPort.afterRead; split <;> rfl

@[simp] theorem PinPort.afterWrite_log (q : PinPort) (p : Pin) (v : Int) :
    (q.afterWrite p v).log = q.log ++ [.write p v] := rfl

@[simp] theorem PinPort.afterWrite_provider (q : PinPort) (p : Pin) (v : Int) :
    (q.afterWrite p v).provider = q.provider := rfl

@[simp] theorem PinPort.afterWrite_readConsumes (q : PinPort) (p : Pin) (v : Int) :
    (q.afterWrite p v).readConsumes = q.readConsumes := rfl

@[simp] theorem PinPort.giveBack_log (q : PinPort) (p : Pin) (a : PinAnswer) :
    (q.giveBack p a).log = q.log := by
  unfold PinPort.giveBack; split <;> rfl

@[simp] theorem PinPort.giveBack_provider (q : PinPort) (p : Pin) (a : PinAnswer) :
    (q.giveBack p a).provider = q.provider := by
  unfold PinPort.giveBack; split <;> rfl

@[simp] theorem PinPort.giveBack_readConsumes (q : PinPort) (p : Pin) (a : PinAnswer) :
    (q.giveBack p a).readConsumes = q.readConsumes := by
  unfold PinPort.giveBack; split <;> rfl

/-- The script's next answer for a pin stands behind other pins' answers, which stay in place. -/
theorem scripted_behind {p : Pin} {front : List (Pin × PinAnswer)} (h : ∀ x ∈ front, x.1 ≠ p)
    (rest : List (Pin × PinAnswer)) (a : PinAnswer) :
    scriptedAnswer p (front ++ (p, a) :: rest) = some a ∧
      dropAnswer p (front ++ (p, a) :: rest) = front ++ rest := by
  induction front with
  | nil => simp [scriptedAnswer, dropAnswer]
  | cons x front ih =>
    have hx := h x (by simp)
    have := ih fun y hy => h y (by simp [hy])
    simp [scriptedAnswer, dropAnswer, hx, this]

/-- A script of other pins' answers only has none for the pin, and a read leaves it. -/
theorem scripted_absent {p : Pin} {script : List (Pin × PinAnswer)} (h : ∀ x ∈ script, x.1 ≠ p) :
    scriptedAnswer p script = none ∧ dropAnswer p script = script := by
  induction script with
  | nil => simp [scriptedAnswer, dropAnswer]
  | cons x script ih =>
    have hx := h x (by simp)
    have := ih fun y hy => h y (by simp [hy])
    simp [scriptedAnswer, dropAnswer, hx, this]

theorem PinPort.answer_stub {q : PinPort} (h : q.provider = .stub) (p : Pin) :
    q.answer p = .value 0 := by
  simp [PinPort.answer, h]

/-- A value that crosses the pin interface is a datum. -/
theorem resolvedOf_value {p : Pin} {a : PinAnswer} {v : Int} (h : resolvedOf p a = .value v) :
    InRange v := by
  cases a with
  | value x => cases h; exact sat_inRange x
  | dataNotAvailable => cases h

/-! Resolving. -/

/-- An operand changes nothing but the pin port, which sees at most one read. -/
theorem resolve_cases {o : Operand} {s s₁ : State} {r : Resolved} (h : resolve o s = (r, s₁)) :
    (s₁ = s ∧ ∃ v, r = .value v ∧
        (o = .lit v ∨ (o = .reg .acc ∧ v = s.acc) ∨ (o = .reg .dat ∧ v = s.dat)
          ∨ (o = .reg .null ∧ v = 0))) ∨
    (∃ p, o = .reg (.pin p) ∧ r = resolvedOf p (s.pins.answer p)
        ∧ s₁ = { s with pins := s.pins.afterRead p }) := by
  cases o with
  | lit v => cases h; exact .inl ⟨rfl, v, rfl, .inl rfl⟩
  | reg x =>
    cases x with
    | acc => cases h; exact .inl ⟨rfl, _, rfl, .inr (.inl ⟨rfl, rfl⟩)⟩
    | dat => cases h; exact .inl ⟨rfl, _, rfl, .inr (.inr (.inl ⟨rfl, rfl⟩))⟩
    | null => cases h; exact .inl ⟨rfl, _, rfl, .inr (.inr (.inr ⟨rfl, rfl⟩))⟩
    | pin p => cases h; exact .inr ⟨p, rfl, rfl, rfl⟩

/-- Resolving an operand leaves every field but the pin port alone. -/
theorem resolve_frame {o : Operand} {s s₁ : State} {r : Resolved} (h : resolve o s = (r, s₁)) :
    s₁ = { s with pins := s₁.pins } := by
  rcases resolve_cases h with ⟨rfl, -⟩ | ⟨p, -, -, rfl⟩ <;> rfl

/-- What an operand gives is a datum where its literal and the registers are. -/
theorem resolve_value_inRange {o : Operand} {s s₁ : State} {v : Int}
    (h : resolve o s = (.value v, s₁)) (ho : o.wf = true) (ha : InRange s.acc) (hd : InRange s.dat) :
    InRange v := by
  rcases resolve_cases h with ⟨-, w, hw, hv⟩ | ⟨p, -, hr, -⟩
  · cases hw
    rcases hv with rfl | ⟨-, rfl⟩ | ⟨-, rfl⟩ | ⟨-, rfl⟩
    · simpa [Operand.wf] using ho
    · exact ha
    · exact hd
    · decide
  · exact resolvedOf_value hr.symm

/-- Only a pin can be without data. -/
theorem resolve_unavailable {o : Operand} {s s₁ : State} {p : Pin}
    (h : resolve o s = (.unavailable p, s₁)) :
    o = .reg (.pin p) ∧ s.pins.answer p = .dataNotAvailable
      ∧ s₁ = { s with pins := s.pins.afterRead p } := by
  rcases resolve_cases h with ⟨-, w, hw, -⟩ | ⟨q, rfl, hr, hs⟩
  · cases hw
  · cases ha : s.pins.answer q with
    | value x => rw [ha] at hr; cases hr
    | dataNotAvailable => rw [ha] at hr; cases hr; exact ⟨rfl, ha, hs⟩

/-- Discarding a read value touches the pin port only. -/
theorem discardRead_frame (o : Operand) (s s₁ : State) :
    discardRead o s s₁ = { s₁ with pins := (discardRead o s s₁).pins } := by
  rcases o with v | (_ | _ | _ | p) <;> rfl

@[simp] theorem discardRead_log (o : Operand) (s s₁ : State) :
    (discardRead o s s₁).pins.log = s₁.pins.log := by
  rcases o with v | (_ | _ | _ | p) <;> simp [discardRead]

/-- Where the provider counts a discarded read as consumed, discarding changes nothing (R59). -/
theorem discardRead_consumed (o : Operand) (s : State) {s₁ : State}
    (h : s₁.pins.readConsumes = true) : discardRead o s s₁ = s₁ := by
  rcases o with v | (_ | _ | _ | p) <;> simp [discardRead, PinPort.giveBack, h]

/-! The two operand shapes. -/

variable {k : Int → State → Host.Outcome State Fault Refusal}
  {k₂ : Int → Int → State → Host.Outcome State Fault Refusal}

theorem withOperand_value {a : Operand} {s s₁ : State} {v : Int}
    (h : resolve a s = (.value v, s₁)) : withOperand a s k = k v s₁ := by
  simp [withOperand, h]

theorem withOperand_unavailable {a : Operand} {s s₁ : State} {p : Pin}
    (h : resolve a s = (.unavailable p, s₁)) : withOperand a s k = .next (retry p s₁) := by
  simp [withOperand, h]

theorem withOperands_value {a b : Operand} {s s₁ s₂ : State} {x y : Int}
    (ha : resolve a s = (.value x, s₁)) (hb : resolve b s₁ = (.value y, s₂)) :
    withOperands a b s k₂ = k₂ x y s₂ := by
  simp [withOperands, ha, hb]

theorem withOperands_unavailable_left {a : Operand} (b : Operand) {s s₁ : State} {p : Pin}
    (ha : resolve a s = (.unavailable p, s₁)) : withOperands a b s k₂ = .next (retry p s₁) := by
  simp [withOperands, ha]

theorem withOperands_unavailable_right {a b : Operand} {s s₁ s₂ : State} {x : Int} {p : Pin}
    (ha : resolve a s = (.value x, s₁)) (hb : resolve b s₁ = (.unavailable p, s₂)) :
    withOperands a b s k₂ = .next (retry p (discardRead a s s₂)) := by
  simp [withOperands, ha, hb]

/-- Everything an instruction of one value operand can do. -/
theorem withOperand_cases (a : Operand) (s : State) :
    (∃ v s₁, resolve a s = (.value v, s₁) ∧ ∀ k, withOperand a s k = k v s₁) ∨
    (∃ p s₁, resolve a s = (.unavailable p, s₁) ∧ ∀ k, withOperand a s k = .next (retry p s₁)) := by
  rcases h : resolve a s with ⟨v | p, s₁⟩
  · exact .inl ⟨v, s₁, rfl, fun _ => withOperand_value h⟩
  · exact .inr ⟨p, s₁, rfl, fun _ => withOperand_unavailable h⟩

/-- Everything an instruction of two value operands can do. -/
theorem withOperands_cases (a b : Operand) (s : State) :
    (∃ x y s₁ s₂, resolve a s = (.value x, s₁) ∧ resolve b s₁ = (.value y, s₂) ∧
      ∀ k, withOperands a b s k = k x y s₂) ∨
    (∃ p s₁, resolve a s = (.unavailable p, s₁) ∧
      ∀ k, withOperands a b s k = .next (retry p s₁)) ∨
    (∃ x p s₁ s₂, resolve a s = (.value x, s₁) ∧ resolve b s₁ = (.unavailable p, s₂) ∧
      ∀ k, withOperands a b s k = .next (retry p (discardRead a s s₂))) := by
  rcases ha : resolve a s with ⟨x | p, s₁⟩
  · rcases hb : resolve b s₁ with ⟨y | p, s₂⟩
    · exact .inl ⟨x, y, s₁, s₂, rfl, hb, fun _ => withOperands_value ha hb⟩
    · exact .inr (.inr ⟨x, p, s₁, s₂, rfl, hb, fun _ => withOperands_unavailable_right ha hb⟩)
  · exact .inr (.inl ⟨p, s₁, rfl, fun _ => withOperands_unavailable_left b ha⟩)

/-! Writing registers. -/

/-- A register write changes that register only. -/
theorem writeReg_cases (r : Reg) (v : Int) (s : State) :
    (r = .acc ∧ writeReg r v s = { s with acc := v }) ∨
    (r = .dat ∧ writeReg r v s = { s with dat := v }) ∨
    (r = .null ∧ writeReg r v s = s) ∨
    (∃ p, r = .pin p ∧ writeReg r v s = { s with pins := s.pins.afterWrite p v }) := by
  cases r with
  | acc => exact .inl ⟨rfl, rfl⟩
  | dat => exact .inr (.inl ⟨rfl, rfl⟩)
  | null => exact .inr (.inr (.inl ⟨rfl, rfl⟩))
  | pin p => exact .inr (.inr (.inr ⟨p, rfl, rfl⟩))

end Sys2Proof.Machine
end

