-- ==== Sys2Proof/Laws/Exec.lean ====
section
/-! SUPPORT. Everything an executed instruction can do, said once: it completes with its own effect, or
an operand has no data and it retries (spec/41_move_control.md, 42_arithmetic.md, 43_test.md; R186). -/

namespace Sys2Proof.Machine

/-- The state of `s` with another pin port: all that resolving operands changes. -/
def withPins (q : PinPort) (s : State) : State := { s with pins := q }

/-- The effect of a completed instruction, up to what its operand reads left in the pin port. -/
def Completed (s t : State) : Instr → Prop
  | .nop _ => t = s
  | .mov _ src d => ∃ v s₁, resolve src s = (.value v, s₁) ∧ t = writeReg d v (withPins s₁.pins s)
  | .jmp _ target => t = { s with pc := target }
  | .slp _ time =>
    ∃ v s₁, resolve time s = (.value v, s₁) ∧ t = block (.blockedOnTime v) (withPins s₁.pins s)
  | .slx _ p => t = block (.blockedOnInput p) s
  | .add _ x =>
    ∃ v s₁, resolve x s = (.value v, s₁) ∧ t = { withPins s₁.pins s with acc := aluAdd s.acc v }
  | .sub _ x =>
    ∃ v s₁, resolve x s = (.value v, s₁) ∧ t = { withPins s₁.pins s with acc := aluSub s.acc v }
  | .mul _ x =>
    ∃ v s₁, resolve x s = (.value v, s₁) ∧ t = { withPins s₁.pins s with acc := aluMul s.acc v }
  | .not _ => t = { s with acc := aluNot s.acc }
  | .dgt _ x =>
    ∃ v s₁, resolve x s = (.value v, s₁) ∧ t = { withPins s₁.pins s with acc := digitAt s.acc v }
  | .dst _ x y =>
    ∃ i d s₁ s₂, resolve x s = (.value i, s₁) ∧ resolve y s₁ = (.value d, s₂) ∧
      t = { withPins s₂.pins s with acc := setDigitAt s.acc i d }
  | .teq _ a b =>
    ∃ x y s₁ s₂, resolve a s = (.value x, s₁) ∧ resolve b s₁ = (.value y, s₂) ∧
      t = setFlags (teqFlags x y) (withPins s₂.pins s)
  | .tgt _ a b =>
    ∃ x y s₁ s₂, resolve a s = (.value x, s₁) ∧ resolve b s₁ = (.value y, s₂) ∧
      t = setFlags (tgtFlags x y) (withPins s₂.pins s)
  | .tlt _ a b =>
    ∃ x y s₁ s₂, resolve a s = (.value x, s₁) ∧ resolve b s₁ = (.value y, s₂) ∧
      t = setFlags (tltFlags x y) (withPins s₂.pins s)
  | .tcp _ a b =>
    ∃ x y s₁ s₂, resolve a s = (.value x, s₁) ∧ resolve b s₁ = (.value y, s₂) ∧
      t = setFlags (tcpFlags x y) (withPins s₂.pins s)

/-- An instruction that found no data at pin `p`: only the pin port and the retry's own fields differ. -/
def Retried (s t : State) : Prop := ∃ p q, t = retry p (withPins q s)

theorem resolve_withPins {o : Operand} {s s₁ : State} {r : Resolved} (h : resolve o s = (r, s₁)) :
    s₁ = withPins s₁.pins s := resolve_frame h

theorem resolve_withPins₂ {a b : Operand} {s s₁ s₂ : State} {r r' : Resolved}
    (ha : resolve a s = (r, s₁)) (hb : resolve b s₁ = (r', s₂)) : s₂ = withPins s₂.pins s := by
  rw [resolve_withPins hb, resolve_withPins ha]
  rfl

variable {k : Int → State → Host.Outcome State Fault Refusal}
  {k₂ : Int → Int → State → Host.Outcome State Fault Refusal}

/-- A one-operand instruction completes or retries. -/
theorem withOperand_next {a : Operand} {s t : State} (h : withOperand a s k = .next t) :
    (∃ v s₁, resolve a s = (.value v, s₁) ∧ k v (withPins s₁.pins s) = .next t) ∨ Retried s t := by
  rcases withOperand_cases a s with ⟨v, s₁, hr, hw⟩ | ⟨p, s₁, hr, hw⟩ <;> rw [hw] at h
  · exact .inl ⟨v, s₁, hr, by rw [← resolve_withPins hr]; exact h⟩
  · cases h
    exact .inr ⟨p, s₁.pins, by rw [← resolve_withPins hr]⟩

/-- A two-operand instruction completes or retries. -/
theorem withOperands_next {a b : Operand} {s t : State} (h : withOperands a b s k₂ = .next t) :
    (∃ x y s₁ s₂, resolve a s = (.value x, s₁) ∧ resolve b s₁ = (.value y, s₂) ∧
      k₂ x y (withPins s₂.pins s) = .next t) ∨ Retried s t := by
  rcases withOperands_cases a b s with ⟨x, y, s₁, s₂, ha, hb, hw⟩ | ⟨p, s₁, ha, hw⟩ |
    ⟨x, p, s₁, s₂, ha, hb, hw⟩ <;> rw [hw] at h
  · exact .inl ⟨x, y, s₁, s₂, ha, hb, by rw [← resolve_withPins₂ ha hb]; exact h⟩
  · cases h
    exact .inr ⟨p, s₁.pins, by rw [← resolve_withPins ha]⟩
  · cases h
    refine .inr ⟨p, (discardRead a s s₂).pins, ?_⟩
    rw [discardRead_frame a s s₂, resolve_withPins₂ ha hb]
    rfl

/-- Everything `exec` can answer with a next state. -/
theorem exec_next {i : Instr} {s t : State} (h : exec i s = .next t) :
    Completed s t i ∨ Retried s t := by
  cases i with
  | nop c => cases h; exact .inl rfl
  | jmp c target => cases h; exact .inl rfl
  | slx c p => cases h; exact .inl rfl
  | not c => cases h; exact .inl rfl
  | mov c src d =>
    refine (withOperand_next h).imp_left ?_
    rintro ⟨v, s₁, hr, hk⟩; cases hk; exact ⟨v, s₁, hr, rfl⟩
  | slp c time =>
    refine (withOperand_next h).imp_left ?_
    rintro ⟨v, s₁, hr, hk⟩; cases hk; exact ⟨v, s₁, hr, rfl⟩
  | add c x =>
    refine (withOperand_next h).imp_left ?_
    rintro ⟨v, s₁, hr, hk⟩; cases hk; exact ⟨v, s₁, hr, rfl⟩
  | sub c x =>
    refine (withOperand_next h).imp_left ?_
    rintro ⟨v, s₁, hr, hk⟩; cases hk; exact ⟨v, s₁, hr, rfl⟩
  | mul c x =>
    refine (withOperand_next h).imp_left ?_
    rintro ⟨v, s₁, hr, hk⟩; cases hk; exact ⟨v, s₁, hr, rfl⟩
  | dgt c x =>
    refine (withOperand_next h).imp_left ?_
    rintro ⟨v, s₁, hr, hk⟩; cases hk; exact ⟨v, s₁, hr, rfl⟩
  | dst c x y =>
    refine (withOperands_next h).imp_left ?_
    rintro ⟨i, d, s₁, s₂, ha, hb, hk⟩; cases hk; exact ⟨i, d, s₁, s₂, ha, hb, rfl⟩
  | teq c a b =>
    refine (withOperands_next h).imp_left ?_
    rintro ⟨x, y, s₁, s₂, ha, hb, hk⟩; cases hk; exact ⟨x, y, s₁, s₂, ha, hb, rfl⟩
  | tgt c a b =>
    refine (withOperands_next h).imp_left ?_
    rintro ⟨x, y, s₁, s₂, ha, hb, hk⟩; cases hk; exact ⟨x, y, s₁, s₂, ha, hb, rfl⟩
  | tlt c a b =>
    refine (withOperands_next h).imp_left ?_
    rintro ⟨x, y, s₁, s₂, ha, hb, hk⟩; cases hk; exact ⟨x, y, s₁, s₂, ha, hb, rfl⟩
  | tcp c a b =>
    refine (withOperands_next h).imp_left ?_
    rintro ⟨x, y, s₁, s₂, ha, hb, hk⟩; cases hk; exact ⟨x, y, s₁, s₂, ha, hb, rfl⟩

end Sys2Proof.Machine
end

