-- ==== Sys2Proof/Laws/HostPort.lean ====
section
/-! SUPPORT. The layout of the host registers STATUS and FAULT as numbers (spec/10_state.md R35). -/

namespace Sys2Proof.Machine

theorem readHostReg_status_toNat (s : State) :
    (readHostReg .status s).toNat
      = (statusDuration s.status).toNat * 2 ^ 5 + (statusPin s.status).toNat * 2 ^ 3
        + s.active.toNat * 2 ^ 2 + (statusKind s.status).toNat := by
  have h₁ := (statusDuration s.status).isLt
  have h₂ := (statusPin s.status).isLt
  have h₃ := (BitVec.ofBool s.active).isLt
  have h₄ := (statusKind s.status).isLt
  simp only [readHostReg, BitVec.toNat_append, BitVec.toNat_ofNat]
  rw [← Nat.shiftLeft_add_eq_or_of_lt h₁, ← Nat.shiftLeft_add_eq_or_of_lt h₂,
    ← Nat.shiftLeft_add_eq_or_of_lt h₃, ← Nat.shiftLeft_add_eq_or_of_lt h₄]
  simp only [Nat.shiftLeft_eq, BitVec.toNat_ofBool]
  omega

theorem readHostReg_fault_toNat (s : State) :
    (readHostReg .fault s).toNat
      = s.faultPc.toNat * 2 ^ 4 + (faultCodeBits s.faultCode).toNat := by
  have h₁ := s.faultPc.isLt
  have h₂ := (faultCodeBits s.faultCode).isLt
  simp only [readHostReg, BitVec.toNat_append, BitVec.toNat_ofNat]
  rw [← Nat.shiftLeft_add_eq_or_of_lt h₁, ← Nat.shiftLeft_add_eq_or_of_lt (by decide : 0 % 2 ^ 1 < 2 ^ 1),
    ← Nat.shiftLeft_add_eq_or_of_lt h₂]
  simp only [Nat.shiftLeft_eq]
  omega

theorem readHostReg_progLen_toNat (s : State) :
    (readHostReg .progLen s).toNat = s.progLen.toNat := by
  have h := s.progLen.isLt
  simp only [readHostReg, BitVec.toNat_append, BitVec.toNat_ofNat]
  rw [← Nat.shiftLeft_add_eq_or_of_lt h, Nat.shiftLeft_eq]
  omega

theorem readHostReg_pc_toNat (s : State) : (readHostReg .pc s).toNat = s.pc.toNat := by
  have h := s.pc.isLt
  simp only [readHostReg, BitVec.toNat_append, BitVec.toNat_ofNat]
  rw [← Nat.shiftLeft_add_eq_or_of_lt h, Nat.shiftLeft_eq]
  omega

end Sys2Proof.Machine
end

