-- ==== Sys2Proof/Laws/Memory.lean ====
section
/-! SUPPORT. Program memory: read after write, and the canonical form that every operation keeps
(spec/20_memory.md R51). -/

namespace Sys2Proof.Machine

theorem findCell_insertCell_same (i : Nat) (w : Word) (cs : List (Nat × Word)) :
    findCell (insertCell i w cs) i = some w := by
  induction cs with
  | nil => simp [insertCell, findCell]
  | cons c rest ih =>
    obtain ⟨k, x⟩ := c
    unfold insertCell
    split
    · simp [findCell]
    · split
      · simp [findCell]
      · simp only [findCell]
        rw [if_neg (by omega), ih]

theorem findCell_insertCell_other {i j : Nat} (w : Word) (h : j ≠ i) (cs : List (Nat × Word)) :
    findCell (insertCell i w cs) j = findCell cs j := by
  induction cs with
  | nil => simp [insertCell, findCell, Ne.symm h]
  | cons c rest ih =>
    obtain ⟨k, x⟩ := c
    unfold insertCell
    split
    · simp [findCell, Ne.symm h]
    · split
      · rename_i hk
        subst hk
        simp [findCell, Ne.symm h]
      · simp only [findCell, ih]

@[simp] theorem Memory.write_slots (m : Memory) (i : Nat) (w : Word) : (m.write i w).slots = m.slots := rfl

/-- A read gives the word last written to its slot. -/
theorem Memory.word_write_same (m : Memory) (i : Nat) (w : Word) : (m.write i w).word i = w := by
  simp [Memory.word, Memory.write, findCell_insertCell_same]

/-- A write leaves every other slot alone. -/
theorem Memory.word_write_other (m : Memory) {i j : Nat} (w : Word) (h : j ≠ i) :
    (m.write i w).word j = m.word j := by
  simp [Memory.word, Memory.write, findCell_insertCell_other w h]

theorem Memory.read_write_same (m : Memory) {i : Nat} (w : Word) (h : i < m.slots) :
    (m.write i w).read i = some w := by
  simp [Memory.read, h, Memory.word_write_same]

theorem Memory.read_write_other (m : Memory) {i j : Nat} (w : Word) (h : j ≠ i) :
    (m.write i w).read j = m.read j := by
  simp [Memory.read, Memory.word_write_other m w h]

theorem risingFrom_mono {lo lo' : Nat} (h : lo' ≤ lo) {cs : List (Nat × Word)}
    (hc : risingFrom lo cs = true) : risingFrom lo' cs = true := by
  cases cs with
  | nil => rfl
  | cons c rest =>
    obtain ⟨k, x⟩ := c
    simp only [risingFrom, Bool.and_eq_true, decide_eq_true_eq] at *
    exact ⟨by omega, hc.2⟩

theorem risingFrom_insertCell {lo i : Nat} (w : Word) (hi : lo ≤ i) (cs : List (Nat × Word))
    (hc : risingFrom lo cs = true) : risingFrom lo (insertCell i w cs) = true := by
  induction cs generalizing lo with
  | nil => simp [insertCell, risingFrom, hi]
  | cons c rest ih =>
    obtain ⟨k, x⟩ := c
    simp only [risingFrom, Bool.and_eq_true, decide_eq_true_eq] at hc
    unfold insertCell
    split
    · simp only [risingFrom, Bool.and_eq_true, decide_eq_true_eq]
      exact ⟨hi, by omega, hc.2⟩
    · split
      · rename_i hk
        subst hk
        simp only [risingFrom, Bool.and_eq_true, decide_eq_true_eq]
        exact ⟨hi, hc.2⟩
      · simp only [risingFrom, Bool.and_eq_true, decide_eq_true_eq]
        exact ⟨hc.1, ih (by omega) hc.2⟩

theorem allBelow_insertCell {n i : Nat} (w : Word) (hi : i < n) (cs : List (Nat × Word))
    (hc : allBelow n cs = true) : allBelow n (insertCell i w cs) = true := by
  induction cs with
  | nil => simp [insertCell, allBelow, hi]
  | cons c rest ih =>
    obtain ⟨k, x⟩ := c
    simp only [allBelow, Bool.and_eq_true, decide_eq_true_eq] at hc
    unfold insertCell
    split
    · simp [allBelow, hi, hc]
    · split
      · simp [allBelow, hi, hc]
      · simp [allBelow, hc, ih hc.2]

theorem Memory.wf_iff (m : Memory) :
    m.wf = true ↔ 1 ≤ m.slots ∧ m.slots ≤ 4096 ∧ risingFrom 0 m.cells = true
      ∧ allBelow m.slots m.cells = true := by
  simp [Memory.wf, and_assoc]

/-- The one memory operation keeps the canonical form. -/
theorem Memory.write_wf {m : Memory} {i : Nat} (w : Word) (hm : m.wf = true) (hi : i < m.slots) :
    (m.write i w).wf = true := by
  rw [Memory.wf_iff] at *
  obtain ⟨h₁, h₂, h₃, h₄⟩ := hm
  exact ⟨h₁, h₂, risingFrom_insertCell w (by omega) _ h₃, allBelow_insertCell w hi _ h₄⟩

/-- Program memory at power-on has the canonical form. -/
theorem Memory.initial_wf : Memory.initial.wf = true := by decide

end Sys2Proof.Machine
end

