-- ==== Sys2Proof/Laws/PerInstr.lean ====
section
/-! SUPPORT. One lemma per instruction: the fields of its encoding decode to it
(spec/30_encoding.md R71 to R77). -/

namespace Sys2Proof.Laws.EncodeFields

/-- The fields of the encoding of a well-formed instruction decode to that instruction. -/
def Statement (i : Instr) : Prop := i.wf = true → decodeFields (encode i) = .ok i

theorem nop (c : Cond) : Statement (.nop c) := by
  intro _
  rw [encode, decodeFields_wordOf (by decide)]
  change decodeZZ (.nop c) 0 0 = _
  rfl

theorem mov (c : Cond) (src : Operand) (dst : Reg) : Statement (.mov c src dst) := by
  intro h
  rw [encode, decodeFields_wordOf (by decide)]
  change decodeVD (.mov c) (encodeOperand src) (encodeRegister dst) = _
  rw [decodeVD, decodeValue_encodeOperand h, decodeDestination_encodeRegister]
  rfl

theorem jmp (c : Cond) (target : Slot) : Statement (.jmp c target) := by
  intro _
  rw [encode, decodeFields_wordOf (by decide)]
  change decodeT (.jmp c) target 0 = _
  rfl

theorem slp (c : Cond) (time : Operand) : Statement (.slp c time) := by
  intro h
  rw [encode, decodeFields_wordOf (by decide)]
  change decodeV (.slp c) (encodeOperand time) 0 = _
  rw [decodeV, decodeValue_encodeOperand h]
  rfl

theorem slx (c : Cond) (pin : Pin) : Statement (.slx c pin) := by
  intro _
  rw [encode, decodeFields_wordOf (by decide)]
  change decodeP (.slx c) (encodeRegister (.pin pin)) 0 = _
  rw [decodeP, decodePin_encodeRegister]
  rfl

theorem add (c : Cond) (operand : Operand) : Statement (.add c operand) := by
  intro h
  rw [encode, decodeFields_wordOf (by decide)]
  change decodeV (.add c) (encodeOperand operand) 0 = _
  rw [decodeV, decodeValue_encodeOperand h]
  rfl

theorem sub (c : Cond) (operand : Operand) : Statement (.sub c operand) := by
  intro h
  rw [encode, decodeFields_wordOf (by decide)]
  change decodeV (.sub c) (encodeOperand operand) 0 = _
  rw [decodeV, decodeValue_encodeOperand h]
  rfl

theorem mul (c : Cond) (operand : Operand) : Statement (.mul c operand) := by
  intro h
  rw [encode, decodeFields_wordOf (by decide)]
  change decodeV (.mul c) (encodeOperand operand) 0 = _
  rw [decodeV, decodeValue_encodeOperand h]
  rfl

theorem not (c : Cond) : Statement (.not c) := by
  intro _
  rw [encode, decodeFields_wordOf (by decide)]
  change decodeZZ (.not c) 0 0 = _
  rfl

theorem dgt (c : Cond) (index : Operand) : Statement (.dgt c index) := by
  intro h
  rw [encode, decodeFields_wordOf (by decide)]
  change decodeV (.dgt c) (encodeOperand index) 0 = _
  rw [decodeV, decodeValue_encodeOperand h]
  rfl

theorem dst (c : Cond) (index : Operand) (value : Operand) : Statement (.dst c index value) := by
  intro h
  simp only [Instr.wf, Bool.and_eq_true] at h
  rw [encode, decodeFields_wordOf (by decide)]
  change decodeVV (.dst c) (encodeOperand index) (encodeOperand value) = _
  rw [decodeVV, decodeValue_encodeOperand h.1, decodeValue_encodeOperand h.2]
  rfl

theorem teq (c : Cond) (a : Operand) (b : Operand) : Statement (.teq c a b) := by
  intro h
  simp only [Instr.wf, Bool.and_eq_true] at h
  rw [encode, decodeFields_wordOf (by decide)]
  change decodeVV (.teq c) (encodeOperand a) (encodeOperand b) = _
  rw [decodeVV, decodeValue_encodeOperand h.1, decodeValue_encodeOperand h.2]
  rfl

theorem tgt (c : Cond) (a : Operand) (b : Operand) : Statement (.tgt c a b) := by
  intro h
  simp only [Instr.wf, Bool.and_eq_true] at h
  rw [encode, decodeFields_wordOf (by decide)]
  change decodeVV (.tgt c) (encodeOperand a) (encodeOperand b) = _
  rw [decodeVV, decodeValue_encodeOperand h.1, decodeValue_encodeOperand h.2]
  rfl

theorem tlt (c : Cond) (a : Operand) (b : Operand) : Statement (.tlt c a b) := by
  intro h
  simp only [Instr.wf, Bool.and_eq_true] at h
  rw [encode, decodeFields_wordOf (by decide)]
  change decodeVV (.tlt c) (encodeOperand a) (encodeOperand b) = _
  rw [decodeVV, decodeValue_encodeOperand h.1, decodeValue_encodeOperand h.2]
  rfl

theorem tcp (c : Cond) (a : Operand) (b : Operand) : Statement (.tcp c a b) := by
  intro h
  simp only [Instr.wf, Bool.and_eq_true] at h
  rw [encode, decodeFields_wordOf (by decide)]
  change decodeVV (.tcp c) (encodeOperand a) (encodeOperand b) = _
  rw [decodeVV, decodeValue_encodeOperand h.1, decodeValue_encodeOperand h.2]
  rfl

end Sys2Proof.Laws.EncodeFields
end

