-- ==== Sys2Proof/Laws/Step.lean ====
section
/-! SUPPORT. What one step can do, said once (spec/44_fetch_execute.md R180 to R188; spec/10_state.md
R36, R37). -/

namespace Sys2Proof.Machine

open Sys2Proof.Safety

/-- The core's turn. -/
theorem step_coreActs {s : State} (h : CoreActs s) : step s = coreTurn (afterTurn s) := by
  obtain ⟨pc, ipc, acc, dat, pa, ma, st, act, fc, fpc, n, m, q, host, rep⟩ := s
  rcases h with h | ⟨rest, h⟩ <;> cases h <;> rfl

/-- The host's turn. -/
theorem step_host {s : State} {t : HostTurn} {rest : List HostTurn} (h : s.host = t :: rest) :
    step s = hostTurn t { s with host := rest } := by
  simp [step, turn, h]

/-- Everything a cycle can do (R182). -/
theorem cycle_cases (s : State) :
    (s.progLen = 0 ∧ cycle s = .next (raiseFault .emptyProgram s)) ∨
    (s.progLen ≠ 0 ∧ s.progLen.toNat ≤ s.pc.toNat ∧ cycle s = .next (raiseFault .pcOutOfRange s)) ∨
    (s.pc.toNat < s.progLen.toNat ∧ s.mem.read s.pc.toNat = none ∧ cycle s = .fault .noSuchSlot) ∨
    (∃ w e, s.pc.toNat < s.progLen.toNat ∧ s.mem.read s.pc.toNat = some w ∧
      decode w s.progLen = .error e ∧ cycle s = .next (raiseFault (faultOf e) (latchFetch s))) ∨
    (∃ w i, s.pc.toNat < s.progLen.toNat ∧ s.mem.read s.pc.toNat = some w ∧
      decode w s.progLen = .ok i ∧ cycle s = gatedExec i (advance (latchFetch s))) := by
  unfold cycle
  by_cases h₀ : s.progLen = 0
  · exact .inl ⟨h₀, if_pos h₀⟩
  rw [if_neg h₀]
  by_cases h₁ : s.progLen.toNat ≤ s.pc.toNat
  · exact .inr (.inl ⟨h₀, h₁, if_pos h₁⟩)
  rw [if_neg h₁]
  have h₁ : s.pc.toNat < s.progLen.toNat := by omega
  refine .inr (.inr ?_)
  cases hw : s.mem.read s.pc.toNat with
  | none => exact .inl ⟨h₁, rfl, by simp [fetch, hw]⟩
  | some w =>
    refine .inr ?_
    cases hd : decode w s.progLen with
    | error e => exact .inl ⟨w, e, h₁, rfl, hd, by simp [fetch, hw, hd]⟩
    | ok i => exact .inr ⟨w, i, h₁, rfl, hd, by simp [fetch, hw, hd]⟩

/-- A slot below the capacity can be read. -/
theorem Memory.read_of_lt {m : Memory} {i : Nat} (h : i < m.slots) : m.read i = some (m.word i) :=
  if_pos h

/-- The cycle of a fetched instruction. -/
theorem step_fetched {s : State} {i : Instr} (h : FetchesInstr s i) :
    step s = gatedExec i (atExec s) := by
  obtain ⟨w, ⟨hc, hr, hp, hw⟩, hd⟩ := h
  rw [step_coreActs hc]
  have hr : running (afterTurn s) = true := hr
  rw [coreTurn, if_pos hr]
  have h₀ : s.progLen ≠ 0 := by
    intro h
    rw [h] at hp
    exact Nat.not_lt_zero _ hp
  have h₁ : ¬ s.progLen.toNat ≤ s.pc.toNat := by omega
  simp only [cycle, fetch, afterTurn, h₀, h₁, if_false, hw, hd]
  rfl

/-- A command the running core ignores, or that a faulted core ignores, only uses up the host's turn. -/
theorem hostRun_cases (s : State) :
    (s.active = false ∧ s.faultCode = none ∧
      hostRun s = { s with status := .notBlocked, active := true }) ∨
    ((s.active = true ∨ s.faultCode ≠ none) ∧ hostRun s = s) := by
  unfold hostRun
  cases ha : s.active with
  | true => exact .inr ⟨.inl rfl, rfl⟩
  | false =>
    cases hf : s.faultCode with
    | none => exact .inl ⟨rfl, rfl, rfl⟩
    | some c => exact .inr ⟨.inr nofun, rfl⟩

/-- Everything `SetProgLen` can do. -/
theorem hostSetProgLen_cases (n : Nat) (s : State) :
    (s.active = false ∧ n ≤ s.mem.slots ∧ hostSetProgLen n s = { s with progLen := BitVec.ofNat 13 n }) ∨
    ((s.active = true ∨ s.mem.slots < n) ∧ hostSetProgLen n s = s) := by
  unfold hostSetProgLen
  cases ha : s.active with
  | true => exact .inr ⟨.inl rfl, rfl⟩
  | false =>
    by_cases hn : n ≤ s.mem.slots
    · exact .inl ⟨rfl, hn, by simp [hn]⟩
    · exact .inr ⟨.inr (by omega), by simp [hn]⟩

/-- Everything `LoadWord` can do. -/
theorem hostLoadWord_cases (i : Nat) (w : Word) (s : State) :
    (s.active = true ∧ hostLoadWord i w s = .next s) ∨
    (s.active = false ∧ i < s.mem.slots ∧ hostLoadWord i w s = .next { s with mem := s.mem.write i w }) ∨
    (s.active = false ∧ s.mem.slots ≤ i ∧ hostLoadWord i w s = .fault .noSuchSlot) := by
  unfold hostLoadWord
  cases ha : s.active with
  | true => exact .inl ⟨rfl, rfl⟩
  | false =>
    by_cases hi : i < s.mem.slots
    · exact .inr (.inl ⟨rfl, hi, by simp [hi]⟩)
    · exact .inr (.inr ⟨rfl, by omega, by simp [hi]⟩)

/-- Everything `ExecDirect` can do (R188). -/
theorem hostExecDirect_cases (w : Word) (s : State) :
    ((s.active = true ∨ s.faultCode ≠ none) ∧ hostExecDirect w s = .next s) ∨
    (∃ e, s.active = false ∧ s.faultCode = none ∧ decode w s.progLen = .error e ∧
      hostExecDirect w s = .next (raiseFault (faultOf e) s)) ∨
    (∃ i, s.active = false ∧ s.faultCode = none ∧ decode w s.progLen = .ok i ∧
      hostExecDirect w s = execDirect i s) := by
  unfold hostExecDirect
  cases ha : s.active with
  | true => exact .inl ⟨.inl rfl, rfl⟩
  | false =>
    cases hf : s.faultCode with
    | some c => exact .inl ⟨.inr nofun, rfl⟩
    | none =>
      cases hd : decode w s.progLen with
      | error e => exact .inr (.inl ⟨e, rfl, rfl, rfl, rfl⟩)
      | ok i => exact .inr (.inr ⟨i, rfl, rfl, rfl, rfl⟩)

/-- The counter after a fetch lies below the program length (R185). -/
theorem nextPc_toNat {pc : Slot} {n : ProgLen} (hp : pc.toNat < n.toNat) (hn : n.toNat ≤ 4096) :
    (nextPc pc n).toNat = (pc.toNat + 1) % n.toNat := by
  have h : (pc.toNat + 1) % n.toNat < n.toNat := Nat.mod_lt _ (by omega)
  rw [nextPc, BitVec.toNat_ofNat, Nat.mod_eq_of_lt (by omega)]

end Sys2Proof.Machine
end

