-- ==== Sys2Proof/Tests/Slice0.lean ====
section
/-! SUPPORT. The model's own tests: the well-formedness smoke, decoding of words written out from the
encoding tables, one step of each instruction against the vectors of spec/95_test_vectors.md, and for
every obligation with hypotheses a concrete witness that meets them. -/

namespace Sys2Proof.Tests

open Sys2Proof.Machine Sys2Proof.Safety

/-! ## Helpers -/

/-- A stopped core with PROG_LEN 5, as the vectors of V-DEC have it. -/
def fresh : State := { State.reset with progLen := 5 }

/-- The same core running, with the word `w` in slot 0. -/
def loaded (w : Word) : State := { fresh with active := true, mem := { slots := 4096, cells := [(0, w)] } }

/-- An external provider with the given answers. -/
def scripted (l : List (Pin × PinAnswer)) : PinPort := { PinPort.initial with provider := .external, script := l }

/-- A core that has taken a fault. -/
def faulty : State := { fresh with faultCode := some .jmpTarget, status := .faulted, pc := 3, faultPc := 3 }

/-- One field of the state after a step. -/
def after {α : Type} (s : State) (f : State → α) : Option α :=
  match step s with
  | .next t => some (f t)
  | .fault _ => none
  | .refused _ => none

/-- One field of the state after the host executes `w` directly. -/
def direct {α : Type} (w : Word) (s : State) (f : State → α) : Option α :=
  after { s with host := [.execDirect w] } f

/-! ## Well-formedness: an ill-formed term for each check -/

theorem test_wf_literal_above : (Operand.lit 1000).wf = false ∧ (Operand.lit 999).wf = true := by decide
theorem test_wf_literal_below : (Operand.lit (-1000)).wf = false ∧ (Operand.lit (-999)).wf = true := by
  decide
theorem test_wf_one_operand :
    ∀ i ∈ [Instr.mov .regular (.lit 1000) .acc, .slp .plus (.lit 1000), .add .minus (.lit (-1000)),
      .sub .regular (.lit 1000), .mul .regular (.lit 1000), .dgt .regular (.lit (-1000))], i.wf = false := by
  decide
theorem test_wf_first_operand :
    ∀ i ∈ [Instr.dst .regular (.lit 1000) (.lit 0), .teq .regular (.lit 1000) (.lit 0),
      .tgt .regular (.lit 1000) (.lit 0), .tlt .regular (.lit 1000) (.lit 0),
      .tcp .regular (.lit 1000) (.lit 0)], i.wf = false := by
  decide
theorem test_wf_second_operand :
    ∀ i ∈ [Instr.dst .regular (.lit 0) (.lit 1000), .teq .regular (.lit 0) (.lit 1000),
      .tgt .regular (.lit 0) (.lit 1000), .tlt .regular (.lit 0) (.lit 1000),
      .tcp .regular (.lit 0) (.lit 1000)], i.wf = false := by
  decide
theorem test_wf_target :
    (Instr.jmp .regular 5).targetOk 5 = false ∧ (Instr.jmp .regular 4).targetOk 5 = true ∧
      (Instr.jmp .regular 0).targetOk 0 = false := by
  decide

/-! ## Decoding: words written out field by field, res B A cond op (R71 to R76, R85, V-DEC) -/

theorem test_decode_nop :
    decode (0b00#2 ++ 0b000000000000#12 ++ 0b000000000000#12 ++ 0b00#2 ++ 0b0000#4) 5
      = .ok (.nop .regular) := by decide
theorem test_decode_mov :
    decode (0b00#2 ++ 0b100000000001#12 ++ 0b000001100100#12 ++ 0b00#2 ++ 0b0001#4) 5
      = .ok (.mov .regular (.lit 100) .dat) := by decide
theorem test_decode_jmp :
    decode (0b00#2 ++ 0b000000000000#12 ++ 0b000000000100#12 ++ 0b10#2 ++ 0b0010#4) 5
      = .ok (.jmp .minus 4) := by decide
theorem test_decode_slp :
    decode (0b00#2 ++ 0b000000000000#12 ++ 0b100000000000#12 ++ 0b00#2 ++ 0b0011#4) 5
      = .ok (.slp .regular (.reg .acc)) := by decide
theorem test_decode_slx :
    decode (0b00#2 ++ 0b000000000000#12 ++ 0b100000000101#12 ++ 0b00#2 ++ 0b0100#4) 5
      = .ok (.slx .regular .p1) := by decide
theorem test_decode_add :
    decode (0b00#2 ++ 0b000000000000#12 ++ 0b011111111111#12 ++ 0b01#2 ++ 0b0101#4) 5
      = .ok (.add .plus (.lit (-1))) := by decide
theorem test_decode_sub :
    decode (0b00#2 ++ 0b000000000000#12 ++ 0b010000011001#12 ++ 0b00#2 ++ 0b0110#4) 5
      = .ok (.sub .regular (.lit (-999))) := by decide
theorem test_decode_mul :
    decode (0b00#2 ++ 0b000000000000#12 ++ 0b100000000010#12 ++ 0b00#2 ++ 0b0111#4) 5
      = .ok (.mul .regular (.reg .null)) := by decide
theorem test_decode_not :
    decode (0b00#2 ++ 0b000000000000#12 ++ 0b000000000000#12 ++ 0b01#2 ++ 0b1000#4) 5
      = .ok (.not .plus) := by decide
theorem test_decode_dgt :
    decode (0b00#2 ++ 0b000000000000#12 ++ 0b000000000001#12 ++ 0b00#2 ++ 0b1001#4) 5
      = .ok (.dgt .regular (.lit 1)) := by decide
theorem test_decode_dst :
    decode (0b00#2 ++ 0b100000000111#12 ++ 0b100000000110#12 ++ 0b00#2 ++ 0b1010#4) 5
      = .ok (.dst .regular (.reg (.pin .x0)) (.reg (.pin .x1))) := by decide
theorem test_decode_teq :
    decode (0b00#2 ++ 0b001111100111#12 ++ 0b100000000000#12 ++ 0b00#2 ++ 0b1011#4) 5
      = .ok (.teq .regular (.reg .acc) (.lit 999)) := by decide
theorem test_decode_tgt :
    decode (0b00#2 ++ 0b000000000010#12 ++ 0b100000000100#12 ++ 0b00#2 ++ 0b1100#4) 5
      = .ok (.tgt .regular (.reg (.pin .p0)) (.lit 2)) := by decide
theorem test_decode_tlt :
    decode (0b00#2 ++ 0b000000000000#12 ++ 0b100000000001#12 ++ 0b00#2 ++ 0b1101#4) 5
      = .ok (.tlt .regular (.reg .dat) (.lit 0)) := by decide
theorem test_decode_tcp :
    decode (0b00#2 ++ 0b100000000001#12 ++ 0b100000000000#12 ++ 0b00#2 ++ 0b1110#4) 5
      = .ok (.tcp .regular (.reg .acc) (.reg .dat)) := by decide

/-- The illegal words of V-DEC, each with its item of R78. -/
theorem test_reject_fields :
    decode 0x40000000 5 = .error .reservedBits ∧ decode 0x0000000F 5 = .error .reservedOpcode ∧
    decode 0x00000030 5 = .error .reservedCond ∧ decode 0x00040000 5 = .error .unusedFieldSet ∧
    decode 0x00000040 5 = .error .unusedFieldSet ∧ decode 0x00040002 5 = .error .unusedFieldSet := by
  decide
theorem test_reject_operands :
    decode 0x0000FA05 5 = .error .literalRange ∧ decode 0x00010605 5 = .error .literalRange ∧
    decode 0x00020205 5 = .error .registerPadding ∧ decode 0x000200C5 5 = .error .reservedRegister ∧
    decode 0x00000001 5 = .error .literalDestination ∧ decode 0x00020004 5 = .error .notAPin ∧
    decode 0x00001904 5 = .error .notAPin := by
  decide
theorem test_reject_target :
    decode 0x00000142 5 = .error .jumpTarget ∧ decode 0x00000102 5 = .ok (.jmp .regular 4) ∧
    decode 0x00000172 5 = .error .reservedCond := by
  decide

/-- R53: `add 1` as bytes, and the decoder reading them. -/
theorem test_bytes :
    wordBytes 0x20041901 = [0x01, 0x19, 0x04, 0x20] ∧
    decodeBytes 5 [0x45, 0x00, 0x00, 0x00, 0x7F] = some (.ok (.add .regular (.lit 1)), [0x7F]) := by
  decide
theorem test_decode_table_word :
    decodeTableWord 32 0x45 = some (.add .regular (.lit 1)) ∧ decodeTableWord 32 0xF = none := by
  decide

/-! ## One step of each instruction (spec/95_test_vectors.md) -/

/-- A cycle of `NOP`: the counter moves, R120. -/
theorem test_nop_cycle : after (loaded 0x00000000) (fun t => (t.pc, t.active, t.acc)) = some (1, true, 0) := by
  decide
/-- V-MOV-10. -/
theorem test_mov_pin_to_pin :
    direct 0x201E0181 { fresh with pins := scripted [(.x0, .value 5)] } (fun t => t.pins.log)
      = some [.read .x0 (.value 5), .write .x1 5] := by
  decide
/-- V-MOV-4. -/
theorem test_mov_to_null :
    direct 0x200A0001 { fresh with acc := 7 } id = some { fresh with acc := 7 } := by
  decide
/-- V-JMP-2, as a cycle. -/
theorem test_jmp : after (loaded 0x000000C2) (fun t => (t.pc, t.active)) = some (3, true) := by decide
/-- V-JMP-4. -/
theorem test_jmp_target_fault :
    direct 0x00000002 { fresh with progLen := 0 } (fun t => (t.faultCode, t.status, t.pc))
      = some (some .jmpTarget, .faulted, 0) := by
  decide
/-- V-SLP-3. -/
theorem test_slp_negative :
    direct 0x0001FFC3 fresh (fun t => (t.status, readHostReg .status t))
      = some (.blockedOnTime (-1), 0x0000FFE1) := by
  decide
/-- V-SLP-5. -/
theorem test_slp_retry :
    after { loaded 0x00020183 with pins := scripted [(.x0, .dataNotAvailable)] }
        (fun t => (t.status, t.pc, t.active))
      = some (.blockedOnInput .x0, 0, false) := by
  decide
/-- V-SLX-1, as a cycle: no pin access, and the counter past the instruction. -/
theorem test_slx :
    after (loaded 0x00020184) (fun t => (t.status, t.pc, t.active, t.pins.log))
      = some (.blockedOnInput .x0, 1, false, []) := by
  decide
/-- V-ADD-2. -/
theorem test_add_saturates : direct 0x00000045 { fresh with acc := 999 } State.acc = some 999 := by decide
/-- V-ADD-4. -/
theorem test_add_itself : direct 0x00020005 { fresh with acc := 600 } State.acc = some 999 := by decide
/-- V-SUB-1. -/
theorem test_sub_order : direct 0x00000206 { fresh with acc := 5 } State.acc = some (-3) := by decide
/-- V-SUB-2. -/
theorem test_sub_saturates : direct 0x00010646 fresh State.acc = some 999 := by decide
/-- V-MUL-3. -/
theorem test_mul_saturates : direct 0x0001FF47 { fresh with acc := -500 } State.acc = some 999 := by decide
/-- V-MUL-7. -/
theorem test_mul_itself : direct 0x00020007 { fresh with acc := -31 } State.acc = some 961 := by decide
/-- V-NOT-1. -/
theorem test_not_zero : direct 0x00000008 fresh State.acc = some 100 := by decide
/-- V-NOT-5. -/
theorem test_not_hundred : direct 0x00000008 { fresh with acc := 100 } State.acc = some 0 := by decide
/-- V-DGT-6. -/
theorem test_dgt_negative_acc : direct 0x00000049 { fresh with acc := -57 } State.acc = some 5 := by decide
/-- V-DGT-5. -/
theorem test_dgt_negative_index : direct 0x0001FFC9 { fresh with acc := 567 } State.acc = some 0 := by
  decide
/-- V-DST-7. -/
theorem test_dst_source_is_acc : direct 0x2002004A { fresh with acc := -567 } State.acc = some (-560) := by
  decide
/-- V-DST-4. -/
theorem test_dst_saturates : direct 0x000400CA { fresh with acc := 5 } State.acc = some 999 := by decide
/-- V-TEQ-1. -/
theorem test_teq :
    direct 0x0F9E000B { fresh with acc := 999 } (fun t => (t.plusAllowed, t.minusAllowed))
      = some (true, false) := by
  decide
/-- V-TEST-5. -/
theorem test_teq_retry :
    direct 0x201E018B
        { fresh with plusAllowed := false, pins := scripted [(.x0, .dataNotAvailable)] }
        (fun t => (t.plusAllowed, t.minusAllowed, t.status, t.pins.log))
      = some (false, true, .blockedOnInput .x0, [.read .x0 .dataNotAvailable]) := by
  decide
/-- V-TGT-2. -/
theorem test_tgt_signed :
    direct 0x1FFC000C fresh (fun t => (t.plusAllowed, t.minusAllowed)) = some (true, false) := by decide
/-- V-TGT-3. -/
theorem test_tgt_equal :
    direct 0x000A000C { fresh with acc := 2 } (fun t => (t.plusAllowed, t.minusAllowed))
      = some (false, true) := by
  decide
/-- V-TLT-1. -/
theorem test_tlt :
    direct 0x0F9D064D fresh (fun t => (t.plusAllowed, t.minusAllowed)) = some (true, false) := by decide
/-- V-TLT-2. -/
theorem test_tlt_equal :
    direct 0x0002004D fresh (fun t => (t.plusAllowed, t.minusAllowed)) = some (false, true) := by decide
/-- V-TCP-2. -/
theorem test_tcp_less :
    direct 0x001C008E fresh (fun t => (t.plusAllowed, t.minusAllowed)) = some (false, true) := by decide
/-- V-TCP-3. -/
theorem test_tcp_equal :
    direct 0x000C00CE fresh (fun t => (t.plusAllowed, t.minusAllowed)) = some (false, false) := by decide

/-! ## The cycle, the host's port and memory -/

/-- V-GATE-7: an illegal word faults although its qualifier is off. -/
theorem test_gate_after_decode :
    after { loaded 0x0000001F with plusAllowed := false } (fun t => (t.faultCode, t.pc, t.active))
      = some (some .illegalInstruction, 0, false) := by
  decide
/-- V-GATE-8: the direct command has no gate. -/
theorem test_direct_has_no_gate :
    direct 0x00000055 { fresh with plusAllowed := false } State.acc = some 1 := by
  decide
/-- V-RETRY-1, second cycle: the value of X0 is discarded. -/
theorem test_retry_on_second_operand :
    after { loaded 0x201E018A with
            acc := 567, pins := scripted [(.x0, .value 2), (.x1, .dataNotAvailable), (.x0, .value 1)] }
        (fun t => (t.acc, t.status, t.pc, t.pins.script))
      = some (567, .blockedOnInput .x1, 0, [(.x0, .value 1)]) := by
  decide
/-- The same cycle with a provider that does not count the discarded read as consumed (R59, R236). -/
theorem test_retry_gives_back :
    after { loaded 0x201E018A with
            pins := { scripted [(.x0, .value 2), (.x1, .dataNotAvailable), (.x0, .value 1)] with
                      readConsumes := false } }
        (fun t => (t.status, t.pins.script, t.pins.reads))
      = some (.blockedOnInput .x1, [(.x0, .value 2), (.x0, .value 1)], 2) := by
  decide
/-- V-PIN-4. -/
theorem test_pin_value_saturates :
    direct 0x20020141 { fresh with pins := scripted [(.p1, .value 2000)] } State.acc = some 999 := by
  decide
/-- V-HOST-2, V-HOST-5, V-HOST-8 and the fault register of V-FAULT-2. -/
theorem test_host_registers :
    readHostReg .status { fresh with status := .blockedOnTime 5 } = 0x000000A1 ∧
    readHostReg .status { fresh with status := .blockedOnInput .p1 } = 0x0000000A ∧
    readHostReg .acc { fresh with acc := -999 } = 0xFFFFFC19 ∧
    readHostReg .fault { fresh with faultCode := some .illegalInstruction, faultPc := 1 } = 0x00000013 := by
  decide
/-- V-WRAP. -/
theorem test_wrap :
    nextPc 0 1 = 0 ∧ nextPc 1 2 = 0 ∧ nextPc 2 3 = 0 ∧ nextPc 0 3 = 1 ∧ nextPc 4095 4096 = 0 := by decide
/-- The reset memory has the canonical form; a list out of order or past the last slot has not. -/
theorem test_memory_form :
    State.reset.mem.wf = true ∧ ({ slots := 8, cells := [(1, 0), (0, 0)] } : Memory).wf = false ∧
      ({ slots := 8, cells := [(8, 0)] } : Memory).wf = false := by
  decide
/-- The word placed by `withFetchWord` is the first instruction after reset. -/
theorem test_with_fetch_word : after (State.reset.withFetchWord 32 0x45) State.acc = some 1 := by decide

/-! ## Witnesses: states and operands that meet the hypotheses of each obligation, clause by clause -/

theorem fetches_loaded {w : Word} {i : Instr} (h : decode w 5 = .ok i) : FetchesInstr (loaded w) i :=
  ⟨w, ⟨.inl rfl, rfl, show (0 : Nat) < 5 by decide, rfl⟩, h⟩

theorem loaded_inv (w : Word) : BlockInv (loaded w) :=
  ⟨⟨show InRange 0 by decide, show InRange 0 by decide, trivial⟩,
    ⟨rfl, show (5 : Nat) ≤ 4096 by decide⟩, ⟨fun _ => rfl, by simp [loaded, fresh, State.reset], fun _ => rfl⟩⟩

theorem fresh_inv : BlockInv fresh :=
  ⟨⟨show InRange 0 by decide, show InRange 0 by decide, trivial⟩,
    ⟨rfl, show (5 : Nat) ≤ 4096 by decide⟩, ⟨nofun, by simp [fresh, State.reset], fun _ => rfl⟩⟩

theorem test_hyps_ResetSetsCoreStateOnly : ∃ s rest, State.host s = .reset :: rest ∧ s.active = true :=
  ⟨{ loaded 0 with host := [.reset, .run] }, _, rfl, rfl⟩

theorem test_hyps_PowerOnStateAndFirstRun :
    ∃ slots q s, s = { State.reset with mem := { State.reset.mem with slots := slots }, pins := q } ∧
      0 < slots :=
  ⟨1, scripted [], _, rfl, by decide⟩

theorem test_hyps_StepKeepsInvariant : ∃ s t, BlockInv s ∧ step s = .next t ∧ t.acc = 1 :=
  ⟨loaded 0x45, { loaded 0x45 with pc := 1, acc := 1 }, loaded_inv _, rfl, rfl⟩

theorem fresh_load_absent_inv : BlockInv { fresh with host := [.loadWord 4096 0] } :=
  ⟨⟨fresh_inv.values.acc, fresh_inv.values.dat, fresh_inv.values.status⟩,
    ⟨fresh_inv.program.memory, fresh_inv.program.length⟩,
    ⟨fresh_inv.control.runs_unblocked, fresh_inv.control.faulted_iff, fresh_inv.control.no_fault_pc⟩⟩

theorem test_hyps_StopsOnlyAtAbsentSlot : ∃ s f, BlockInv s ∧ step s = .fault f :=
  ⟨{ fresh with host := [.loadWord 4096 0] }, .noSuchSlot, fresh_load_absent_inv, rfl⟩

theorem test_hyps_RunStartsStoppedCore :
    (∃ s rest, State.host s = .run :: rest ∧ s.active = false ∧ s.faultCode = none) ∧
    (∃ s rest, State.host s = .run :: rest ∧ s.active = true) ∧
    ∃ s rest, State.host s = .run :: rest ∧ s.faultCode ≠ none :=
  ⟨⟨{ fresh with host := [.run] }, [], by decide⟩, ⟨{ loaded 0 with host := [.run] }, [], by decide⟩,
    { faulty with host := [.run] }, [], by decide⟩

theorem test_hyps_LoadWordStoresOneSlot :
    (∃ s i w rest, State.host s = .loadWord i w :: rest ∧ s.active = false ∧ i < s.mem.slots ∧ i = 4095) ∧
    ∃ s i w rest, State.host s = .loadWord i w :: rest ∧ s.active = false ∧ s.mem.slots ≤ i ∧ i = 4096 :=
  ⟨⟨{ fresh with host := [.loadWord 4095 1] }, 4095, 1, [], by decide⟩,
    { fresh with host := [.loadWord 4096 1] }, 4096, 1, [], by decide⟩

theorem test_hyps_SetProgLenWritesUpToCapacity :
    (∃ s n rest, State.host s = .setProgLen n :: rest ∧ s.active = false ∧ s.mem.slots ≤ 4096 ∧
      n ≤ s.mem.slots ∧ n = 4096) ∧
    ∃ s n rest, State.host s = .setProgLen n :: rest ∧ s.active = false ∧ s.mem.slots ≤ 4096 ∧
      s.mem.slots < n ∧ n = 4097 :=
  ⟨⟨{ fresh with host := [.setProgLen 4096] }, 4096, [], by decide⟩,
    { fresh with host := [.setProgLen 4097] }, 4097, [], by decide⟩

theorem test_hyps_CommandsIgnoredWhileActive :
    (∀ c ∈ [HostTurn.loadWord 0 0, .setProgLen 1, .run, .execDirect 0],
      ∃ s, State.host s = [c] ∧ s.active = true) ∧
    (∃ s, State.host s = [.reset]) ∧ ∃ s, State.host s = [.readReg .flags] :=
  ⟨fun c _ => ⟨{ loaded 0 with host := [c] }, rfl, rfl⟩, ⟨{ fresh with host := [.reset] }, rfl⟩,
    { fresh with host := [.readReg .flags] }, rfl⟩

theorem test_hyps_StatusAndFaultRegisterBits :
    (∃ s d, State.status s = .blockedOnTime d ∧ InRange d ∧ d = -999) ∧
    ∃ s, ∀ d, State.status s ≠ .blockedOnTime d :=
  ⟨⟨{ fresh with status := .blockedOnTime (-999) }, -999, by decide⟩, fresh, nofun⟩

theorem test_hyps_ValueRegisterViews : ∃ s, InRange (State.acc s) ∧ InRange s.dat ∧ s.acc = -999 ∧ s.dat = 999 :=
  ⟨{ fresh with acc := -999, dat := 999 }, by decide⟩

theorem test_hyps_ExecDirectRunsOneInstruction :
    (∃ s w rest, State.host s = .execDirect w :: rest ∧ s.active = true) ∧
    (∃ s w rest, State.host s = .execDirect w :: rest ∧ s.faultCode ≠ none) ∧
    (∃ s w rest e, State.host s = .execDirect w :: rest ∧ s.active = false ∧ s.faultCode = none ∧
      decode w s.progLen = .error e) ∧
    (∃ s w rest c t, State.host s = .execDirect w :: rest ∧ s.active = false ∧ s.faultCode = none ∧
      decode w s.progLen = .ok (.jmp c t)) ∧
    ∃ s w rest i, State.host s = .execDirect w :: rest ∧ s.active = false ∧ s.faultCode = none ∧
      decode w s.progLen = .ok i ∧ ∀ c t, i ≠ .jmp c t :=
  ⟨⟨{ loaded 0 with host := [.execDirect 0x45] }, 0x45, [], by decide⟩,
    ⟨{ faulty with host := [.execDirect 0x45] }, 0x45, [], by decide⟩,
    ⟨{ fresh with host := [.execDirect 0xF] }, 0xF, [], .reservedOpcode, by decide⟩,
    ⟨{ fresh with host := [.execDirect 0x102] }, 0x102, [], .regular, 4, by decide⟩,
    { fresh with host := [.execDirect 0x45] }, 0x45, [], .add .regular (.lit 1), rfl, rfl, rfl, by decide, nofun⟩

theorem test_hyps_StepRunsDecodedInstruction :
    ∃ s w i, CoreActs s ∧ s.active = true ∧ s.faultCode = none ∧ s.pc.toNat < s.progLen.toNat ∧
      s.pc.toNat < s.mem.slots ∧ s.mem.word s.pc.toNat = w ∧ decode w s.progLen = .ok i ∧
      (i.cond = .plus ∧ s.plusAllowed = true) :=
  ⟨loaded 0x55, 0x55, .add .plus (.lit 1), .inl rfl, rfl, rfl, by decide, by decide, rfl, by decide, rfl, rfl⟩

theorem test_hyps_GateSkipsInstruction :
    (∃ s i, FetchesInstr s i ∧ i.cond = .plus ∧ s.plusAllowed = false) ∧
    ∃ s i, FetchesInstr s i ∧ i.cond = .minus ∧ s.minusAllowed = false :=
  ⟨⟨{ loaded 0x55 with plusAllowed := false }, .add .plus (.lit 1),
      ⟨0x55, ⟨.inl rfl, rfl, show (0 : Nat) < 5 by decide, rfl⟩, show decode 0x55 5 = _ by decide⟩, rfl, rfl⟩,
    { loaded 0x22 with minusAllowed := false }, .jmp .minus 0,
      ⟨0x22, ⟨.inl rfl, rfl, show (0 : Nat) < 5 by decide, rfl⟩, show decode 0x22 5 = _ by decide⟩, rfl, rfl⟩

theorem test_hyps_NopActsLikeSkipped :
    ∃ s₁ s₂ c i, FetchesInstr s₁ (.nop c) ∧ FetchesInstr s₂ i ∧ gate i.cond s₂ = false ∧
      s₂ = { s₁ with mem := s₂.mem } :=
  ⟨{ loaded 0 with plusAllowed := false }, { loaded 0x55 with plusAllowed := false }, .regular,
    .add .plus (.lit 1),
    ⟨0, ⟨.inl rfl, rfl, show (0 : Nat) < 5 by decide, rfl⟩, show decode 0 5 = _ by decide⟩,
    ⟨0x55, ⟨.inl rfl, rfl, show (0 : Nat) < 5 by decide, rfl⟩, show decode 0x55 5 = _ by decide⟩, rfl, rfl⟩

theorem test_hyps_CycleFaultsInPriorityOrder :
    (∃ s, CoreActs s ∧ s.active = true ∧ s.faultCode = none ∧ s.progLen = 0) ∧
    (∃ s, CoreActs s ∧ s.active = true ∧ s.faultCode = none ∧ s.progLen ≠ 0 ∧
      s.progLen.toNat ≤ s.pc.toNat ∧ s.pc = 5) ∧
    ∃ s e, CoreActs s ∧ s.active = true ∧ s.faultCode = none ∧ s.pc.toNat < s.progLen.toNat ∧
      s.pc.toNat < s.mem.slots ∧ decode (s.mem.word s.pc.toNat) s.progLen = .error e ∧ e = .jumpTarget :=
  ⟨⟨{ loaded 0 with progLen := 0 }, .inl rfl, rfl, rfl, rfl⟩,
    ⟨{ loaded 0 with pc := 5 }, .inl rfl, rfl, rfl, by decide, by decide, rfl⟩,
    loaded 0x142, _, .inl rfl, rfl, rfl, by decide, by decide, by decide, rfl⟩

/-- The two sides of the equivalence, on both sides of the boundary. -/
theorem test_hyps_JumpTargetIsOnlyDefect :
    decode 0x142 5 = .error .jumpTarget ∧ decode 0x142 6 ≠ .error .jumpTarget ∧
    decode 0x172 5 ≠ .error .jumpTarget := by
  decide

theorem test_hyps_StoppedCoreTakesNoStep :
    (∃ s, CoreActs s ∧ s.active = false ∧ s.faultCode = none) ∧ ∃ s, CoreActs s ∧ s.faultCode ≠ none :=
  ⟨⟨fresh, .inl rfl, rfl, rfl⟩, { faulty with host := [.wait] }, .inr ⟨[], rfl⟩, nofun⟩

theorem test_hyps_FaultIsStickyUntilReset :
    (∃ s rest, State.faultCode s ≠ none ∧ s.host = .run :: rest) ∧
    (∃ s w rest, State.faultCode s ≠ none ∧ s.host = .execDirect w :: rest) ∧
    (∃ s, State.faultCode s ≠ none ∧ CoreActs s) ∧
    (∃ s t, State.faultCode s ≠ none ∧ step s = .next t ∧ s.host = [.setProgLen 9] ∧ t.progLen = 9) ∧
    ∃ s rest, State.faultCode s ≠ none ∧ s.host = .reset :: rest :=
  ⟨⟨{ faulty with host := [.run] }, [], by decide⟩, ⟨{ faulty with host := [.execDirect 0] }, 0, [], by decide⟩,
    ⟨faulty, nofun, .inl rfl⟩,
    ⟨{ faulty with host := [.setProgLen 9] }, { faulty with progLen := 9 }, nofun, rfl, rfl, rfl⟩,
    { faulty with host := [.reset] }, [], by decide⟩

theorem test_hyps_NextPcWrapsAtProgLen :
    (∃ (pc : Slot) (n : ProgLen), pc.toNat < n.toNat ∧ n.toNat ≤ 4096 ∧ pc.toNat + 1 = n.toNat ∧ n = 4096) ∧
    (∃ (pc : Slot) (n : ProgLen), pc.toNat < n.toNat ∧ n.toNat ≤ 4096 ∧ pc.toNat + 1 < n.toNat) ∧
    ∃ (pc : Slot) (n : ProgLen), pc.toNat < n.toNat ∧ n.toNat ≤ 4096 ∧ n = 1 :=
  ⟨⟨4095, 4096, by decide⟩, ⟨0, 2, by decide⟩, 0, 1, by decide⟩

theorem test_hyps_PcMovesByWrapJumpOrNotAtAll :
    (∃ s t, CoreActs s ∧ s.active = true ∧ s.faultCode = none ∧ step s = .next t ∧ t.pc = 1) ∧
    (∃ s t, CoreActs s ∧ s.active = true ∧ s.faultCode = none ∧ step s = .next t ∧ t.pc = 0) ∧
    ∃ s t, CoreActs s ∧ s.active = true ∧ s.faultCode = none ∧ step s = .next t ∧ t.pc = 3 :=
  ⟨⟨loaded 0, { loaded 0 with pc := 1 }, .inl rfl, rfl, rfl, rfl, rfl⟩,
    ⟨loaded 0xF, { loaded 0xF with faultCode := some .illegalInstruction, status := .faulted, active := false },
      .inl rfl, rfl, rfl, rfl, rfl⟩,
    loaded 0xC2, { loaded 0xC2 with pc := 3 }, .inl rfl, rfl, rfl, rfl, rfl⟩

theorem test_hyps_PcStaysBelowProgLen :
    ∃ s t, BlockInv s ∧ s.pc.toNat < s.progLen.toNat ∧ step s = .next t ∧
      (∀ n rest, s.host ≠ .setProgLen n :: rest) ∧ t.pc = 1 :=
  ⟨loaded 0, { loaded 0 with pc := 1 }, loaded_inv _, by decide, rfl, nofun, rfl⟩

theorem test_hyps_RunEndsOnlyByBlockOrFault :
    (∃ s t, CoreActs s ∧ s.active = true ∧ step s = .next t ∧ t.active = false ∧
      t.status = .blockedOnTime 5) ∧
    ∃ s t, CoreActs s ∧ s.active = true ∧ step s = .next t ∧ t.active = false ∧ t.status = .faulted :=
  ⟨⟨loaded 0x143, { loaded 0x143 with pc := 1, status := .blockedOnTime 5, active := false },
      .inl rfl, rfl, rfl, rfl, rfl⟩,
    loaded 0xF, { loaded 0xF with faultCode := some .illegalInstruction, status := .faulted, active := false },
    .inl rfl, rfl, rfl, rfl, rfl⟩

theorem test_hyps_WithFetchWordRunsInstruction :
    ∃ s w i, (State.mem s).slots ≤ 4096 ∧ s.pc.toNat < s.mem.slots ∧
      decode (BitVec.ofNat 32 w) (BitVec.ofNat 13 s.mem.slots) = .ok i ∧ gate i.cond s = true ∧
      s.pc = 4095 :=
  ⟨{ State.reset with pc := 4095 }, 0x45, .add .regular (.lit 1), by decide⟩

/-- A literal, and an external pin that has data, give values. -/
theorem test_hyps_MovCopiesSourceToDestination :
    (∃ src s s₁ v, resolve src s = (.value v, s₁) ∧ src = .reg (.pin .x0)) ∧
    ∃ src s s₁ p, resolve src s = (.unavailable p, s₁) ∧ src = .reg (.pin .x0) :=
  ⟨⟨_, { fresh with pins := scripted [(.x0, .value 5)] }, _, 5, rfl, rfl⟩,
    _, { fresh with pins := scripted [(.x0, .dataNotAvailable)] }, _, .x0, rfl, rfl⟩

theorem test_hyps_SlpBlocksOnTime :
    (∃ time s s₁ d, resolve time s = (.value d, s₁) ∧ d = -999) ∧
    ∃ time s s₁ p, resolve time s = (.unavailable p, s₁) :=
  ⟨⟨.lit (-999), fresh, _, _, rfl, rfl⟩,
    .reg (.pin .x1), { fresh with pins := scripted [(.x1, .dataNotAvailable)] }, _, .x1, rfl⟩

theorem test_hyps_AddSubMulSaturateIntoAcc :
    (∃ x s s₁ v, resolve x s = (.value v, s₁) ∧ s.acc = 999 ∧ v = 1) ∧
    ∃ x s s₁ p, resolve x s = (.unavailable p, s₁) :=
  ⟨⟨.lit 1, { fresh with acc := 999 }, _, _, rfl, rfl, rfl⟩,
    .reg (.pin .p0), { fresh with pins := scripted [(.p0, .dataNotAvailable)] }, _, .p0, rfl⟩

theorem test_hyps_NotIsHundredOrZero : (∃ s, State.acc s = 0) ∧ ∃ s, State.acc s ≠ 0 :=
  ⟨⟨fresh, rfl⟩, { fresh with acc := -1 }, by decide⟩

theorem test_hyps_DgtExtractsDigit :
    (∃ x s s₁ i, resolve x s = (.value i, s₁) ∧ i < 0) ∧ (∃ x s s₁ i, resolve x s = (.value i, s₁) ∧ i = 2) ∧
    ∃ x s s₁ p, resolve x s = (.unavailable p, s₁) :=
  ⟨⟨.lit (-1), fresh, _, _, rfl, by decide⟩, ⟨.lit 2, fresh, _, _, rfl, rfl⟩,
    .reg (.pin .p1), { fresh with pins := scripted [(.p1, .dataNotAvailable)] }, _, .p1, rfl⟩

theorem test_hyps_DstReplacesDigit :
    (∃ index value s s₁ s₂ i d, resolve index s = (.value i, s₁) ∧ resolve value s₁ = (.value d, s₂) ∧
      i = -1) ∧
    (∃ index value s s₁ s₂ i d, resolve index s = (.value i, s₁) ∧ resolve value s₁ = (.value d, s₂) ∧
      i = 0) ∧
    ∃ index value s s₁ s₂ i d, resolve index s = (.value i, s₁) ∧ resolve value s₁ = (.value d, s₂) ∧
      i = 3 ∧ d = 10 :=
  ⟨⟨.lit (-1), .lit 7, fresh, _, _, _, _, rfl, rfl, rfl⟩,
    ⟨.reg .dat, .reg .acc, fresh, _, _, _, _, rfl, rfl, rfl⟩,
    .lit 3, .lit 10, fresh, _, _, _, _, rfl, rfl, rfl, rfl⟩

theorem test_hyps_TestsWriteFlagsByTable :
    ∃ a b s s₁ s₂ x y, resolve a s = (.value x, s₁) ∧ resolve b s₁ = (.value y, s₂) ∧ x = y :=
  ⟨.reg .acc, .lit 0, fresh, _, _, _, _, rfl, rfl, rfl⟩

theorem test_hyps_RegisterReads :
    (∃ s p v, PinPort.answer (State.pins s) p = .value v ∧ v = 2000) ∧
    ∃ s p, PinPort.answer (State.pins s) p = .dataNotAvailable :=
  ⟨⟨{ fresh with pins := scripted [(.p1, .value 2000)] }, .p1, _, rfl, rfl⟩,
    { fresh with pins := scripted [(.p1, .dataNotAvailable)] }, .p1, rfl⟩

theorem test_hyps_StubReadsZero : (State.pins fresh).provider = .stub := rfl

/-- An answer behind another pin's, out of range on either side, none available, and none scripted. -/
theorem test_hyps_ExternalReadSaturates :
    (∀ v ∈ [(-1000 : Int), -999, 999, 1000], ∃ s p front rest, (State.pins s).provider = .external ∧
      (∀ x ∈ front, x.1 ≠ p) ∧ s.pins.script = front ++ (p, .value v) :: rest ∧ front.length = 1) ∧
    (∃ s p front rest, (State.pins s).provider = .external ∧ (∀ x ∈ front, x.1 ≠ p) ∧
      s.pins.script = front ++ (p, .dataNotAvailable) :: rest) ∧
    ∃ s p front, (State.pins s).provider = .external ∧ (∀ x ∈ front, x.1 ≠ p) ∧
      s.pins.script = front ∧ front.length = 1 :=
  ⟨fun v _ => ⟨{ fresh with pins := scripted [(.x1, .value 3), (.x0, .value v)] }, .x0, [(.x1, .value 3)], [],
      rfl, by decide, rfl, rfl⟩,
    ⟨{ fresh with pins := scripted [(.p0, .dataNotAvailable)] }, .p0, [], [], rfl, by decide, rfl⟩,
    { fresh with pins := scripted [(.x1, .value 3)] }, .x0, [(.x1, .value 3)], rfl, by decide, rfl, rfl⟩

/-- The free answer of the external provider has one of the two forms the statement names. -/
theorem test_free_answer_forms (n : Nat) (p : Pin) :
    (∃ v, Config.pinAnswer n p = some v) ∨ Config.pinAnswer n p = none :=
  match Config.pinAnswer n p with
  | some v => .inl ⟨v, rfl⟩
  | none => .inr rfl

theorem test_hyps_TwoOperandRetry :
    (∃ c a b s s₁ p i, i = Instr.dst c a b ∧ resolve a s = (.unavailable p, s₁)) ∧
    ∃ c a b s s₁ s₂ p x i, i = Instr.tcp c a b ∧ resolve a s = (.value x, s₁) ∧
      resolve b s₁ = (.unavailable p, s₂) ∧ a = .reg (.pin .x0) :=
  ⟨⟨.regular, .reg (.pin .x0), .lit 1, { fresh with pins := scripted [(.x0, .dataNotAvailable)] },
      _, .x0, _, rfl, rfl⟩,
    .regular, .reg (.pin .x0), .reg (.pin .x1),
    { fresh with pins := scripted [(.x0, .value 2), (.x1, .dataNotAvailable)] }, _, _, .x1, 2, _, rfl, rfl,
    rfl, rfl⟩

theorem test_hyps_DiscardedReadFollowsProvider :
    (∃ o : Operand, ∀ p, o ≠ .reg (.pin p)) ∧
    (∃ s₁, (State.pins s₁).provider = .external ∧ s₁.pins.readConsumes = true) ∧
    ∃ s₁, (State.pins s₁).provider = .external ∧ s₁.pins.readConsumes = false :=
  ⟨⟨.reg .acc, nofun⟩, ⟨{ fresh with pins := scripted [] }, rfl, rfl⟩,
    { fresh with pins := { scripted [] with readConsumes := false } }, rfl, rfl⟩

/-- `mov x0 x1` with no data at `X0`, as a cycle. -/
def starved : State := { loaded 0x201E0181 with pins := scripted [(.x0, .dataNotAvailable)] }

theorem test_hyps_RetryRefetchesInstruction :
    ∃ s t i p, FetchesInstr s i ∧ gate i.cond s = true ∧ (∀ c q, i ≠ .slx c q) ∧ s.status = .notBlocked ∧
      step s = .next t ∧ t.status = .blockedOnInput p :=
  ⟨starved,
    { starved with
      status := .blockedOnInput .x0, active := false,
      pins := { starved.pins with script := [], reads := 1, log := [.read .x0 .dataNotAvailable] } },
    .mov .regular (.reg (.pin .x0)) (.pin .x1), .x0,
    ⟨0x201E0181, ⟨.inl rfl, rfl, show (0 : Nat) < 5 by decide, rfl⟩, show decode 0x201E0181 5 = _ by decide⟩,
    rfl, nofun, rfl, rfl, rfl⟩

/-- An instruction with two pin reads. -/
theorem test_hyps_PinAccessesOfOneInstruction :
    ∃ i s t, exec i s = .next t ∧ t.pins.log.length = 2 :=
  ⟨.tcp .regular (.reg (.pin .p0)) (.reg (.pin .x1)), fresh, _, rfl, rfl⟩

theorem test_hyps_InstructionsLeaveControlState : ∃ i s t, exec i s = .next t ∧ t.acc ≠ s.acc :=
  ⟨.not .regular, fresh, { fresh with acc := 100 }, rfl, by decide⟩

/-- A completed instruction, and one without data. -/
theorem test_hyps_ArithmeticFrame :
    (∃ c x i s t, i = Instr.add c x ∧ exec i s = .next t ∧ t.acc = 1) ∧
    ∃ c x y i s t, i = Instr.dst c x y ∧ exec i s = .next t ∧ t.status = .blockedOnInput .x0 :=
  ⟨⟨.regular, .lit 1, _, fresh, _, rfl, rfl, rfl⟩,
    .regular, .lit 1, .reg (.pin .x0), _, { fresh with pins := scripted [(.x0, .dataNotAvailable)] }, _, rfl,
    rfl, rfl⟩

theorem test_hyps_TestFrame :
    (∃ c a b i s t, i = Instr.tlt c a b ∧ exec i s = .next t ∧ t.plusAllowed = false) ∧
    ∃ c a b i s t, i = Instr.teq c a b ∧ exec i s = .next t ∧ t.status = .blockedOnInput .x0 :=
  ⟨⟨.regular, .lit 1, .lit 1, _, fresh, _, rfl, rfl, rfl⟩,
    .regular, .lit 1, .reg (.pin .x0), _, { fresh with pins := scripted [(.x0, .dataNotAvailable)] }, _, rfl,
    rfl, rfl⟩

theorem test_hyps_MoveControlFrame :
    (∃ c x i s t, i = Instr.mov c x .acc ∧ exec i s = .next t ∧ t.acc ≠ s.acc) ∧
    (∃ c x i s t, i = Instr.mov c x .dat ∧ exec i s = .next t ∧ t.dat ≠ s.dat) ∧
    (∃ c p i s t, i = Instr.slx c p ∧ exec i s = .next t ∧ t.status ≠ s.status) ∧
    ∃ c g i s t, i = Instr.jmp c g ∧ exec i s = .next t ∧ (∀ q, t.status ≠ .blockedOnInput q) ∧
      (∀ d, t.status ≠ .blockedOnTime d) ∧ t.pc ≠ s.pc :=
  ⟨⟨.regular, .lit 1, _, fresh, { fresh with acc := 1 }, rfl, rfl, by decide⟩,
    ⟨.regular, .lit 1, _, fresh, { fresh with dat := 1 }, rfl, rfl, by decide⟩,
    ⟨.regular, .x0, _, fresh, { fresh with status := .blockedOnInput .x0, active := false }, rfl, rfl,
      by decide⟩,
    .regular, 3, _, fresh, { fresh with pc := 3 }, rfl, rfl, nofun, nofun, by decide⟩

theorem test_hyps_OnlyTestsWriteFlags :
    (∃ s t, step s = .next t ∧ t.plusAllowed ≠ s.plusAllowed) ∧
    ∃ s t, step s = .next t ∧ t.minusAllowed ≠ s.minusAllowed :=
  ⟨⟨{ fresh with plusAllowed := false, host := [.reset] }, { State.reset with progLen := 5 }, rfl, by decide⟩,
    loaded 0x0002004B, { loaded 0x0002004B with pc := 1, minusAllowed := false }, rfl, by decide⟩

theorem test_hyps_WritersOfAccAndDat :
    (∃ i s t, exec i s = .next t ∧ t.dat ≠ s.dat) ∧ ∃ i s t, exec i s = .next t ∧ t.acc ≠ s.acc :=
  ⟨⟨.mov .regular (.lit 1) .dat, fresh, { fresh with dat := 1 }, rfl, by decide⟩,
    .not .regular, fresh, { fresh with acc := 100 }, rfl, by decide⟩

theorem test_hyps_OnlyLoadWordWritesProgramMemory : ∃ s t, step s = .next t ∧ t.mem ≠ s.mem :=
  ⟨{ fresh with host := [.loadWord 7 1] }, { fresh with mem := { slots := 4096, cells := [(7, 1)] } }, rfl,
    by decide⟩

theorem test_hyps_SaturationClampsAndIsMonotone :
    ((-1000 : Int) < -999) ∧ ((999 : Int) < 1000) ∧ InRange (-999) ∧ InRange 999 ∧ ((-1000 : Int) ≤ 1000) := by
  decide

theorem test_hyps_SaturatingAluLaws : InRange (-999) ∧ InRange 999 := by decide

theorem test_hyps_DigitAtIsDecimalDigit : ((0 : Int) ≤ 0) ∧ ((-1 : Int) < 0) ∧ InRange 567 ∧ ((3 : Int) ≤ 3) := by
  decide

theorem test_hyps_SetDigitKeepsOtherDigits :
    (InRange (-999) ∧ (0 : Int) ≤ 2 ∧ (2 : Int) ≤ 2 ∧ (0 : Int) ≤ 9 ∧ (9 : Int) ≤ 9 ∧ (0 : Int) ≠ 2) ∧
    InRange 999 ∧ (0 : Int) ≤ 0 ∧ (0 : Int) ≤ 2 := by
  decide

theorem test_hyps_SetDigitOutsideThePlaces :
    InRange 5 ∧ (-1 : Int) < 0 ∧ (9 : Int) < 10 ∧ (3 : Int) ≤ 3 ∧ (0 : Int) ≤ 0 ∧ (1 : Int) ≤ 1 := by
  decide

theorem test_hyps_DecodeOfEncode :
    (∃ (i : Instr) (n : ProgLen), i.wf = true ∧ i.targetOk n = true) ∧
    ∃ (i : Instr) (n : ProgLen), i.wf = true ∧ i.targetOk n = false :=
  ⟨⟨.dst .minus (.lit (-999)) (.reg (.pin .x1)), 0, by decide⟩, .jmp .plus 5, 5, by decide⟩

theorem test_hyps_EncodeOfDecode : decode 0x1FF0004A 5 = .ok (.dst .regular (.lit 1) (.lit (-4))) := by decide

/-- A legal word and an illegal one. -/
theorem test_hyps_IllegalWordsAreTheTenItems :
    decode 0x00010645 5 = .ok (.add .regular (.lit (-999))) ∧ decode 0x00010605 5 = .error .literalRange := by
  decide

end Sys2Proof.Tests
end

section
/-! Proofs of the statements of spec/10_state.md: first what an executed instruction writes and what one
step can do, each said once; then the invariant of the block; then the statements. -/

namespace Sys2Proof.Machine

open Sys2Proof.Safety

/-! ## What an executed instruction writes -/

/-- The instructions whose result goes to `ACC` (42_arithmetic.md). -/
def WritesAcc (i : Instr) : Prop :=
  (∃ c x, i = .add c x ∨ i = .sub c x ∨ i = .mul c x ∨ i = .dgt c x) ∨ (∃ c, i = .not c) ∨
    ∃ c x y, i = .dst c x y

/-- The test instructions (43_test.md). -/
def IsTest (i : Instr) : Prop :=
  ∃ c a b, i = .teq c a b ∨ i = .tgt c a b ∨ i = .tlt c a b ∨ i = .tcp c a b

/-- The next states of an instruction by what it writes beside the pin port: the counter at most, the
destination of a `MOV`, the status of a blocking instruction, `ACC`, the flags, or what a retry writes. -/
inductive Writes (s : State) : Instr → State → Prop where
  | counter (i : Instr) (pc : Slot) : Writes s i { s with pc := pc }
  | register (c : Cond) (d : Reg) {src : Operand} {v : Int} {s₁ : State}
      (hr : resolve src s = (.value v, s₁)) : Writes s (.mov c src d) (writeReg d v (withPins s₁.pins s))
  | time (c : Cond) {x : Operand} {v : Int} {s₁ : State} (hr : resolve x s = (.value v, s₁)) :
      Writes s (.slp c x) (block (.blockedOnTime v) (withPins s₁.pins s))
  | input (c : Cond) (p : Pin) : Writes s (.slx c p) (block (.blockedOnInput p) s)
  | acc {i : Instr} (hi : WritesAcc i) (q : PinPort) {v : Int} (hv : InRange s.acc → InRange v) :
      Writes s i { withPins q s with acc := v }
  | flags {i : Instr} (hi : IsTest i) (q : PinPort) (f : AllowFlags) :
      Writes s i (setFlags f (withPins q s))
  | retried (i : Instr) (p : Pin) (q : PinPort) : Writes s i (retry p (withPins q s))

variable {s t : State} {i : Instr}

theorem completed_writes (h : Completed s t i) : Writes s i t := by
  cases i with
  | nop c => cases h; exact .counter _ s.pc
  | mov c src d => obtain ⟨v, s₁, hr, rfl⟩ := h; exact .register c d hr
  | jmp c target => cases h; exact .counter _ target
  | slp c x => obtain ⟨v, s₁, hr, rfl⟩ := h; exact .time c hr
  | slx c p => cases h; exact .input c p
  | add c x =>
    obtain ⟨v, s₁, -, rfl⟩ := h
    exact .acc (.inl ⟨c, x, .inl rfl⟩) _ fun _ => sat_inRange _
  | sub c x =>
    obtain ⟨v, s₁, -, rfl⟩ := h
    exact .acc (.inl ⟨c, x, .inr (.inl rfl)⟩) _ fun _ => sat_inRange _
  | mul c x =>
    obtain ⟨v, s₁, -, rfl⟩ := h
    exact .acc (.inl ⟨c, x, .inr (.inr (.inl rfl))⟩) _ fun _ => sat_inRange _
  | not c => cases h; exact .acc (.inr (.inl ⟨c, rfl⟩)) s.pins fun _ => aluNot_inRange _
  | dgt c x =>
    obtain ⟨v, s₁, -, rfl⟩ := h
    exact .acc (.inl ⟨c, x, .inr (.inr (.inr rfl))⟩) _ fun _ => digitAt_inRange _ _
  | dst c x y =>
    obtain ⟨j, d, s₁, s₂, -, -, rfl⟩ := h
    exact .acc (.inr (.inr ⟨c, x, y, rfl⟩)) _ fun ha => setDigitAt_inRange j d ha
  | teq c a b =>
    obtain ⟨x, y, s₁, s₂, -, -, rfl⟩ := h
    exact .flags ⟨c, a, b, .inl rfl⟩ _ _
  | tgt c a b =>
    obtain ⟨x, y, s₁, s₂, -, -, rfl⟩ := h
    exact .flags ⟨c, a, b, .inr (.inl rfl)⟩ _ _
  | tlt c a b =>
    obtain ⟨x, y, s₁, s₂, -, -, rfl⟩ := h
    exact .flags ⟨c, a, b, .inr (.inr (.inl rfl))⟩ _ _
  | tcp c a b =>
    obtain ⟨x, y, s₁, s₂, -, -, rfl⟩ := h
    exact .flags ⟨c, a, b, .inr (.inr (.inr rfl))⟩ _ _

/-- Every next state of `exec` is one of the seven kinds. -/
theorem exec_writes (h : exec i s = .next t) : Writes s i t := by
  rcases exec_next h with h | ⟨p, q, rfl⟩
  · exact completed_writes h
  · exact .retried i p q

/-- An instruction that is no test leaves both flags (R30). -/
theorem exec_flags (h : exec i s = .next t) :
    (t.plusAllowed = s.plusAllowed ∧ t.minusAllowed = s.minusAllowed) ∨ IsTest i := by
  cases exec_writes h with
  | flags hi => exact .inr hi
  | register c d => cases d <;> exact .inl ⟨rfl, rfl⟩
  | _ => exact .inl ⟨rfl, rfl⟩

theorem exec_dat (h : exec i s = .next t) : t.dat = s.dat ∨ ∃ c src, i = .mov c src .dat := by
  cases exec_writes h with
  | @register c d src =>
    cases d with
    | dat => exact .inr ⟨c, src, rfl⟩
    | acc => exact .inl rfl
    | null => exact .inl rfl
    | pin p => exact .inl rfl
  | _ => exact .inl rfl

theorem exec_acc (h : exec i s = .next t) :
    t.acc = s.acc ∨ (∃ c src, i = .mov c src .acc) ∨ WritesAcc i := by
  cases exec_writes h with
  | acc hi => exact .inr (.inr hi)
  | @register c d src =>
    cases d with
    | acc => exact .inr (.inl ⟨c, src, rfl⟩)
    | dat => exact .inl rfl
    | null => exact .inl rfl
    | pin p => exact .inl rfl
  | _ => exact .inl rfl

/-! ## What no instruction writes -/

/-- `t` has the program, the fault registers, the fetch latch, the host's input and output and the
provider's settings of `s`. -/
structure ControlKept (s t : State) : Prop where
  mem : t.mem = s.mem
  progLen : t.progLen = s.progLen
  faultCode : t.faultCode = s.faultCode
  faultPc : t.faultPc = s.faultPc
  ipc : t.ipc = s.ipc
  host : t.host = s.host
  reply : t.reply = s.reply
  provider : t.pins.provider = s.pins.provider
  readConsumes : t.pins.readConsumes = s.pins.readConsumes

theorem ControlKept.trans {u : State} (h : ControlKept s t) (h' : ControlKept t u) : ControlKept s u where
  mem := h'.mem.trans h.mem
  progLen := h'.progLen.trans h.progLen
  faultCode := h'.faultCode.trans h.faultCode
  faultPc := h'.faultPc.trans h.faultPc
  ipc := h'.ipc.trans h.ipc
  host := h'.host.trans h.host
  reply := h'.reply.trans h.reply
  provider := h'.provider.trans h.provider
  readConsumes := h'.readConsumes.trans h.readConsumes

/-- The fields an instruction writes are all others. -/
theorem controlKept_of_writes (s : State) (pc : Slot) (acc dat : Int) (plus minus : Bool) (st : Status)
    (active : Bool) :
    ControlKept s
      { s with pc := pc, acc := acc, dat := dat, plusAllowed := plus, minusAllowed := minus,
               status := st, active := active } :=
  ⟨rfl, rfl, rfl, rfl, rfl, rfl, rfl, rfl, rfl⟩

theorem controlKept_of_pins {q : PinPort} (hp : q.provider = s.pins.provider)
    (hc : q.readConsumes = s.pins.readConsumes) : ControlKept s { s with pins := q } :=
  ⟨rfl, rfl, rfl, rfl, rfl, rfl, rfl, hp, hc⟩

theorem controlKept_refl (s : State) : ControlKept s s := controlKept_of_writes s ..

theorem retry_controlKept (p : Pin) (s : State) : ControlKept s (retry p s) := controlKept_of_writes s ..

theorem resolve_controlKept {o : Operand} {r : Resolved} (h : resolve o s = (r, t)) : ControlKept s t := by
  rcases resolve_cases h with ⟨rfl, -⟩ | ⟨p, -, -, rfl⟩
  · exact controlKept_refl _
  · exact controlKept_of_pins (by simp) (by simp)

theorem discardRead_controlKept (o : Operand) (s₀ s : State) : ControlKept s (discardRead o s₀ s) := by
  rcases o with v | (_ | _ | _ | p)
  · exact controlKept_refl s
  · exact controlKept_refl s
  · exact controlKept_refl s
  · exact controlKept_refl s
  · exact controlKept_of_pins (by simp) (by simp)

theorem writeReg_controlKept (d : Reg) (v : Int) (s : State) : ControlKept s (writeReg d v s) := by
  cases d with
  | acc => exact controlKept_of_writes s ..
  | dat => exact controlKept_of_writes s ..
  | null => exact controlKept_refl s
  | pin p => exact controlKept_of_pins rfl rfl

/-- A one-operand instruction keeps what its effect keeps. -/
theorem withOperand_controlKept {a : Operand} {f : Int → State → State}
    (hf : ∀ v s, ControlKept s (f v s)) (h : withOperand a s (fun v s₁ => .next (f v s₁)) = .next t) :
    ControlKept s t := by
  rcases withOperand_cases a s with ⟨v, s₁, hr, hw⟩ | ⟨p, s₁, hr, hw⟩ <;> rw [hw] at h <;> cases h
  · exact (resolve_controlKept hr).trans (hf v s₁)
  · exact (resolve_controlKept hr).trans (retry_controlKept p s₁)

/-- A two-operand instruction keeps what its effect keeps. -/
theorem withOperands_controlKept {a b : Operand} {f : Int → Int → State → State}
    (hf : ∀ x y s, ControlKept s (f x y s))
    (h : withOperands a b s (fun x y s₁ => .next (f x y s₁)) = .next t) : ControlKept s t := by
  rcases withOperands_cases a b s with ⟨x, y, s₁, s₂, ha, hb, hw⟩ | ⟨p, s₁, ha, hw⟩ |
    ⟨x, p, s₁, s₂, ha, hb, hw⟩ <;> rw [hw] at h <;> cases h
  · exact ((resolve_controlKept ha).trans (resolve_controlKept hb)).trans (hf x y s₂)
  · exact (resolve_controlKept ha).trans (retry_controlKept p s₁)
  · exact (((resolve_controlKept ha).trans (resolve_controlKept hb)).trans
      (discardRead_controlKept a s s₂)).trans (retry_controlKept p _)

theorem exec_controlKept (h : exec i s = .next t) : ControlKept s t := by
  cases i with
  | nop c => cases h; exact controlKept_refl s
  | mov c src d => exact withOperand_controlKept (writeReg_controlKept d) h
  | jmp c target => cases h; exact controlKept_of_writes s ..
  | slp c x => exact withOperand_controlKept (fun _ s => controlKept_of_writes s ..) h
  | slx c p => cases h; exact controlKept_of_writes s ..
  | add c x => exact withOperand_controlKept (fun _ s => controlKept_of_writes s ..) h
  | sub c x => exact withOperand_controlKept (fun _ s => controlKept_of_writes s ..) h
  | mul c x => exact withOperand_controlKept (fun _ s => controlKept_of_writes s ..) h
  | not c => cases h; exact controlKept_of_writes s ..
  | dgt c x => exact withOperand_controlKept (fun _ s => controlKept_of_writes s ..) h
  | dst c x y => exact withOperands_controlKept (fun _ _ s => controlKept_of_writes s ..) h
  | teq c a b => exact withOperands_controlKept (fun _ _ s => controlKept_of_writes s ..) h
  | tgt c a b => exact withOperands_controlKept (fun _ _ s => controlKept_of_writes s ..) h
  | tlt c a b => exact withOperands_controlKept (fun _ _ s => controlKept_of_writes s ..) h
  | tcp c a b => exact withOperands_controlKept (fun _ _ s => controlKept_of_writes s ..) h

/-! ## What one step can do -/

/-- The state in which `ExecDirect` executes (R188): not blocked, and the latch lent the counter. -/
def directState (s : State) : State := { s with host := s.host.tail, status := .notBlocked, ipc := s.pc }

/-- Everything a step can do, with the guard of each case (R36, R37, R180 to R188, R204, R205). -/
inductive StepEffect (s : State) : State → Prop where
  /-- A turn of the stopped core, or a command that has no effect. -/
  | idle (h : CoreActs s → running s = false) : StepEffect s (afterTurn s)
  | emptyProgram (hc : CoreActs s) (hr : running s = true) (hn : s.progLen = 0) :
      StepEffect s (raiseFault .emptyProgram (afterTurn s))
  | pcOutOfRange (hc : CoreActs s) (hr : running s = true) (hn : s.progLen ≠ 0)
      (hp : s.progLen.toNat ≤ s.pc.toNat) : StepEffect s (raiseFault .pcOutOfRange (afterTurn s))
  | decodeFault {w : Word} {e : Reject} (hw : Fetches s w) (hd : decode w s.progLen = .error e) :
      StepEffect s (raiseFault (faultOf e) (latchFetch (afterTurn s)))
  | skip {i : Instr} (hi : FetchesInstr s i) (hg : gate i.cond s = false) : StepEffect s (atExec s)
  | execute {i : Instr} {t : State} (hi : FetchesInstr s i) (hg : gate i.cond s = true)
      (he : exec i (atExec s) = .next t) : StepEffect s t
  | reset {rest : List HostTurn} (hh : s.host = .reset :: rest) : StepEffect s (resetCore (afterTurn s))
  | loadWord {n : Nat} {w : Word} {rest : List HostTurn} (hh : s.host = .loadWord n w :: rest)
      (ha : s.active = false) (hn : n < s.mem.slots) :
      StepEffect s { afterTurn s with mem := s.mem.write n w }
  | setProgLen {n : Nat} {rest : List HostTurn} (hh : s.host = .setProgLen n :: rest)
      (ha : s.active = false) (hn : n ≤ s.mem.slots) :
      StepEffect s { afterTurn s with progLen := BitVec.ofNat 13 n }
  | run {rest : List HostTurn} (hh : s.host = .run :: rest) (ha : s.active = false)
      (hf : s.faultCode = none) : StepEffect s { afterTurn s with status := .notBlocked, active := true }
  | directFault {w : Word} {rest : List HostTurn} {e : Reject} (hh : s.host = .execDirect w :: rest)
      (ha : s.active = false) (hf : s.faultCode = none) (hd : decode w s.progLen = .error e) :
      StepEffect s (raiseFault (faultOf e) (afterTurn s))
  | direct {w : Word} {rest : List HostTurn} {i : Instr} {t : State}
      (hh : s.host = .execDirect w :: rest) (ha : s.active = false) (hf : s.faultCode = none)
      (hd : decode w s.progLen = .ok i) (he : exec i (directState s) = .next t) :
      StepEffect s { t with ipc := s.ipc }
  | readReg {h : HostReg} {rest : List HostTurn} (hh : s.host = .readReg h :: rest) :
      StepEffect s (hostReadReg h (afterTurn s))

@[simp] theorem gate_atExec (c : Cond) (s : State) : gate c (atExec s) = gate c s := by
  cases c <;> rfl

theorem running_iff : running s = true ↔ s.active = true ∧ s.faultCode = none := by
  simp [running]

theorem coreTurn_effect (hc : CoreActs s) (h : step s = .next t) : StepEffect s t := by
  rw [step_coreActs hc, coreTurn] at h
  change (if running s = true then cycle (afterTurn s) else .next (afterTurn s)) = .next t at h
  cases hr : running s with
  | false => rw [hr] at h; cases h; exact .idle fun _ => hr
  | true =>
    rw [hr, if_pos rfl] at h
    rcases cycle_cases (afterTurn s) with ⟨hn, hs⟩ | ⟨hn, hp, hs⟩ | ⟨-, -, hs⟩ |
      ⟨w, e, hp, hw, hd, hs⟩ | ⟨w, i, hp, hw, hd, hs⟩ <;> rw [hs] at h
    · cases h; exact .emptyProgram hc hr hn
    · cases h; exact .pcOutOfRange hc hr hn hp
    · cases h
    · cases h; exact .decodeFault ⟨hc, hr, hp, hw⟩ hd
    · have hi : FetchesInstr s i := ⟨w, ⟨hc, hr, hp, hw⟩, hd⟩
      change gatedExec i (atExec s) = .next t at h
      rw [gatedExec, gate_atExec] at h
      cases hg : gate i.cond s with
      | false => rw [hg] at h; cases h; exact .skip hi hg
      | true => rw [hg] at h; exact .execute hi hg h

/-- A command the host gives is no turn of the core. -/
theorem not_coreActs {c : HostTurn} {rest : List HostTurn} (hh : s.host = c :: rest) (hc : c ≠ .wait) :
    ¬ CoreActs s := by
  rintro (h | ⟨rest', h⟩) <;> rw [hh] at h <;> cases h
  exact hc rfl

theorem step_command {c : HostTurn} {rest : List HostTurn} (hh : s.host = c :: rest) :
    step s = hostTurn c (afterTurn s) := by
  rw [step_host hh, afterTurn, hh, List.tail_cons]

theorem execDirect_next (h : execDirect i s = .next t) :
    ∃ u, exec i { s with status := .notBlocked, ipc := s.pc } = .next u ∧ t = { u with ipc := s.ipc } := by
  unfold execDirect at h
  split at h
  next u hu => cases h; exact ⟨u, hu, rfl⟩
  next => cases h
  next => cases h

theorem command_effect {c : HostTurn} {rest : List HostTurn} (hh : s.host = c :: rest) (hc : c ≠ .wait)
    (h : step s = .next t) : StepEffect s t := by
  have idle : StepEffect s (afterTurn s) := .idle fun h => absurd h (not_coreActs hh hc)
  rw [step_command hh] at h
  cases c with
  | wait => exact absurd rfl hc
  | reset => cases h; exact .reset hh
  | loadWord n w =>
    rcases hostLoadWord_cases n w (afterTurn s) with ⟨-, hs⟩ | ⟨ha, hn, hs⟩ | ⟨-, -, hs⟩ <;>
      rw [hostTurn, hs] at h <;> cases h
    · exact idle
    · exact .loadWord hh ha hn
  | setProgLen n =>
    cases h
    rcases hostSetProgLen_cases n (afterTurn s) with ⟨ha, hn, hs⟩ | ⟨-, hs⟩ <;> rw [hs]
    · exact .setProgLen hh ha hn
    · exact idle
  | run =>
    cases h
    rcases hostRun_cases (afterTurn s) with ⟨ha, hf, hs⟩ | ⟨-, hs⟩ <;> rw [hs]
    · exact .run hh ha hf
    · exact idle
  | execDirect w =>
    rcases hostExecDirect_cases w (afterTurn s) with ⟨-, hs⟩ | ⟨e, ha, hf, hd, hs⟩ | ⟨i, ha, hf, hd, hs⟩ <;>
      rw [hostTurn, hs] at h
    · cases h; exact idle
    · cases h; exact .directFault hh ha hf hd
    · obtain ⟨u, hu, rfl⟩ := execDirect_next h
      exact .direct hh ha hf hd hu
  | readReg r => cases h; exact .readReg hh

/-- A next state of a step is one of the effects. -/
theorem step_effect (h : step s = .next t) : StepEffect s t := by
  cases hh : s.host with
  | nil => exact coreTurn_effect (.inl hh) h
  | cons c rest =>
    by_cases hc : c = .wait
    · exact coreTurn_effect (.inr ⟨rest, hc ▸ hh⟩) h
    · exact command_effect hh hc h

end Sys2Proof.Machine

namespace Sys2Proof.Machine

/-! ## The host registers -/

variable (s : State)

/-- The bit fields of STATUS (R35). -/
theorem status_fields :
    (readHostReg .status s).extractLsb' 0 2 = statusKind s.status ∧
    (readHostReg .status s).extractLsb' 2 1 = BitVec.ofBool s.active ∧
    (readHostReg .status s).extractLsb' 3 2 = statusPin s.status ∧
    (readHostReg .status s).extractLsb' 5 11 = statusDuration s.status ∧
    (readHostReg .status s).extractLsb' 16 16 = 0#16 := by
  have hk := (statusKind s.status).isLt
  have ha := s.active.toNat_le
  have hp := (statusPin s.status).isLt
  have hd := (statusDuration s.status).isLt
  refine ⟨?_, ?_, ?_, ?_, ?_⟩ <;> apply BitVec.eq_of_toNat_eq <;>
    simp only [BitVec.extractLsb'_toNat, readHostReg_status_toNat, Nat.shiftRight_eq_div_pow,
      BitVec.toNat_ofBool, BitVec.toNat_ofNat] <;> omega

/-- The bit fields of FAULT (R35). -/
theorem fault_fields :
    (readHostReg .fault s).extractLsb' 0 3 = faultCodeBits s.faultCode ∧
    (readHostReg .fault s).extractLsb' 3 1 = 0#1 ∧
    (readHostReg .fault s).extractLsb' 4 12 = s.faultPc ∧
    (readHostReg .fault s).extractLsb' 16 16 = 0#16 := by
  have hc := (faultCodeBits s.faultCode).isLt
  have hp := s.faultPc.isLt
  refine ⟨?_, ?_, ?_, ?_⟩ <;> apply BitVec.eq_of_toNat_eq <;>
    simp only [BitVec.extractLsb'_toNat, readHostReg_fault_toNat, Nat.shiftRight_eq_div_pow,
      BitVec.toNat_ofNat] <;> omega

/-- A datum is kept in two's complement of 11 bits or more (R10). -/
theorem toInt_ofInt_of_inRange {n : Nat} {v : Int} (hn : 11 ≤ n) (hv : InRange v) :
    (BitVec.ofInt n v).toInt = v := by
  have hpow : (2 : Int) ^ 10 ≤ 2 ^ (n - 1) := pow_le_pow_right₀ (by decide) (by omega)
  obtain ⟨h₁, h₂⟩ := hv
  exact BitVec.toInt_ofInt_eq_self (by omega) (by omega) (by omega)

theorem readHostReg_flags_toNat :
    (readHostReg .flags s).toNat = s.plusAllowed.toNat + 2 * s.minusAllowed.toNat := by
  rw [readHostReg]
  cases s.plusAllowed <;> cases s.minusAllowed <;> rfl

/-- No host register shows the host's coming turns. -/
theorem readHostReg_afterTurn (h : HostReg) : readHostReg h (Safety.afterTurn s) = readHostReg h s := by
  cases h <;> rfl

/-! ## The commands by their guards (R36, R37) -/

variable {s}

theorem hostLoadWord_active (i : Nat) (w : Word) (h : s.active = true) : hostLoadWord i w s = .next s :=
  if_pos h

theorem hostSetProgLen_active (n : Nat) (h : s.active = true) : hostSetProgLen n s = s := if_pos h

theorem hostRun_active (h : s.active = true) : hostRun s = s := if_pos h

theorem hostExecDirect_active (w : Word) (h : s.active = true) : hostExecDirect w s = .next s := if_pos h

end Sys2Proof.Machine

namespace Sys2Proof.Safety

open Sys2Proof.Machine

/-! ## The invariant of the block -/

variable {s t : State}

/-- The fields the invariant does not read. -/
theorem BlockInv.of_unread (h : BlockInv s) (pc ipc : Slot) (plus minus : Bool) (q : PinPort)
    (host : List HostTurn) (reply : Option (BitVec 32)) :
    BlockInv { s with pc := pc, ipc := ipc, plusAllowed := plus, minusAllowed := minus, pins := q,
                      host := host, reply := reply } :=
  ⟨⟨h.values.acc, h.values.dat, h.values.status⟩, ⟨h.program.memory, h.program.length⟩,
    ⟨h.control.runs_unblocked, h.control.faulted_iff, h.control.no_fault_pc⟩⟩

theorem BlockInv.withPins (h : BlockInv s) (q : PinPort) : BlockInv (withPins q s) := h.of_unread ..

theorem BlockInv.afterTurn (h : BlockInv s) : BlockInv (afterTurn s) := h.of_unread ..

theorem BlockInv.latchedTurn (h : BlockInv s) : BlockInv (latchFetch (Safety.afterTurn s)) := h.of_unread ..

theorem BlockInv.atExec (h : BlockInv s) : BlockInv (atExec s) := h.of_unread ..

theorem BlockInv.write_acc {v : Int} (h : BlockInv s) (hv : InRange v) : BlockInv { s with acc := v } :=
  ⟨{ h.values with acc := hv }, ⟨h.program.memory, h.program.length⟩,
    ⟨h.control.runs_unblocked, h.control.faulted_iff, h.control.no_fault_pc⟩⟩

theorem BlockInv.write_dat {v : Int} (h : BlockInv s) (hv : InRange v) : BlockInv { s with dat := v } :=
  ⟨{ h.values with dat := hv }, ⟨h.program.memory, h.program.length⟩,
    ⟨h.control.runs_unblocked, h.control.faulted_iff, h.control.no_fault_pc⟩⟩

/-- Without a fault every status but Faulted may be written, on a core that runs only if it is
NotBlocked. -/
theorem BlockInv.write_status {st : Status} {active : Bool} (h : BlockInv s) (hf : s.faultCode = none)
    (hr : statusInRange st) (hst : st ≠ .faulted) (ha : active = true → st = .notBlocked) :
    BlockInv { s with status := st, active := active } :=
  ⟨{ h.values with status := hr }, ⟨h.program.memory, h.program.length⟩,
    ⟨ha, iff_of_false hst (not_not_intro hf), h.control.no_fault_pc⟩⟩

theorem BlockInv.block {st : Status} (h : BlockInv s) (hf : s.faultCode = none) (hr : statusInRange st)
    (hst : st ≠ .faulted) : BlockInv (block st s) := h.write_status hf hr hst nofun

theorem BlockInv.retry (h : BlockInv s) (hf : s.faultCode = none) (p : Pin) : BlockInv (retry p s) :=
  (h.block hf (st := .blockedOnInput p) trivial nofun).of_unread ..

theorem BlockInv.raiseFault (h : BlockInv s) (c : FaultCode) : BlockInv (raiseFault c s) :=
  ⟨{ h.values with status := trivial }, ⟨h.program.memory, h.program.length⟩,
    ⟨nofun, iff_of_true rfl nofun, nofun⟩⟩

theorem zero_inRange : InRange 0 := by decide

theorem BlockInv.resetCore (h : BlockInv s) : BlockInv (resetCore s) :=
  ⟨⟨zero_inRange, zero_inRange, trivial⟩, ⟨h.program.memory, h.program.length⟩,
    ⟨nofun, iff_of_false nofun (not_not_intro rfl), fun _ => rfl⟩⟩

theorem BlockInv.slots_le (h : BlockInv s) : s.mem.slots ≤ 4096 := by
  obtain ⟨-, hs, -⟩ := (Memory.wf_iff _).1 h.program.memory
  exact hs

theorem BlockInv.write_mem {n : Nat} (h : BlockInv s) (w : Word) (hn : n < s.mem.slots) :
    BlockInv { s with mem := s.mem.write n w } :=
  ⟨⟨h.values.acc, h.values.dat, h.values.status⟩, ⟨Memory.write_wf w h.program.memory hn, h.program.length⟩,
    ⟨h.control.runs_unblocked, h.control.faulted_iff, h.control.no_fault_pc⟩⟩

/-- A length up to the capacity fits the 13 bits of PROG_LEN (R34). -/
theorem progLen_toNat {n : Nat} (h : n ≤ 4096) : (BitVec.ofNat 13 n : ProgLen).toNat = n := by
  rw [BitVec.toNat_ofNat]
  omega

theorem BlockInv.write_progLen {n : Nat} (h : BlockInv s) (hn : n ≤ s.mem.slots) :
    BlockInv { s with progLen := BitVec.ofNat 13 n } :=
  ⟨⟨h.values.acc, h.values.dat, h.values.status⟩,
    ⟨h.program.memory, (progLen_toNat (hn.trans h.slots_le)).trans_le hn⟩,
    ⟨h.control.runs_unblocked, h.control.faulted_iff, h.control.no_fault_pc⟩⟩

theorem BlockInv.writeReg {v : Int} (h : BlockInv s) (d : Reg) (hv : InRange v) :
    BlockInv (writeReg d v s) := by
  cases d with
  | acc => exact h.write_acc hv
  | dat => exact h.write_dat hv
  | null => exact h
  | pin p => exact h.of_unread ..

/-- A well-formed instruction keeps the invariant on a core without a fault. -/
theorem BlockInv.exec {i : Instr} (h : BlockInv s) (hi : i.wf = true) (hf : s.faultCode = none)
    (he : exec i s = .next t) : BlockInv t := by
  cases exec_writes he with
  | counter i pc => exact h.of_unread ..
  | register c d hr =>
    exact (h.withPins _).writeReg d (resolve_value_inRange hr hi h.values.acc h.values.dat)
  | time c hr =>
    exact (h.withPins _).block hf (resolve_value_inRange hr hi h.values.acc h.values.dat) nofun
  | input c p => exact h.block hf trivial nofun
  | acc _ q hv => exact (h.withPins q).write_acc (hv h.values.acc)
  | flags _ q f => exact h.of_unread ..
  | retried i p q => exact (h.withPins q).retry hf p

theorem BlockInv.directState (h : BlockInv s) (hf : s.faultCode = none) : BlockInv (directState s) :=
  (h.write_status (active := s.active) hf (st := .notBlocked) trivial nofun fun _ => rfl).of_unread ..

theorem BlockInv.step (h : BlockInv s) (hs : step s = .next t) : BlockInv t := by
  cases step_effect hs with
  | idle => exact h.afterTurn
  | emptyProgram => exact h.afterTurn.raiseFault _
  | pcOutOfRange => exact h.afterTurn.raiseFault _
  | decodeFault => exact h.latchedTurn.raiseFault _
  | skip => exact h.atExec
  | execute hi _ he =>
    obtain ⟨w, ⟨-, hr, -, -⟩, hd⟩ := hi
    exact h.atExec.exec (decode_wf hd) (running_iff.1 hr).2 he
  | reset => exact h.afterTurn.resetCore
  | loadWord _ _ hn => exact h.afterTurn.write_mem _ hn
  | setProgLen _ _ hn => exact h.afterTurn.write_progLen hn
  | run _ _ hf => exact h.afterTurn.write_status hf trivial nofun fun _ => rfl
  | directFault => exact h.afterTurn.raiseFault _
  | direct _ _ hf hd he => exact BlockInv.of_unread ((h.directState hf).exec (decode_wf hd) hf he) ..
  | readReg => exact h.of_unread ..

end Sys2Proof.Safety

namespace Sys2Proof.Proofs

open Sys2Proof.Machine Sys2Proof.Safety

/-- Settles O4: the step lemma of the invariant, by the effects of a step. -/
theorem stepKeepsInvariant : Obligations.StepKeepsInvariant := fun _ _ h hs => h.step hs

/-- Settles O44: resolving, discarding, retrying and each instruction's effect all keep these fields. -/
theorem instructionsLeaveControlState : Obligations.InstructionsLeaveControlState := by
  intro i s t h
  obtain ⟨h₁, h₂, h₃, h₄, h₅, h₆, h₇, h₈, h₉⟩ := exec_controlKept h
  exact ⟨h₁, h₂, h₃, h₄, h₅, h₆, h₇, h₈, h₉⟩

/-- Settles O48: a step leaves the flags but for `Reset` and the execution of a test. -/
theorem onlyTestsWriteFlags : Obligations.OnlyTestsWriteFlags := by
  intro s t hs hne
  have changed : ¬ (t.plusAllowed = s.plusAllowed ∧ t.minusAllowed = s.minusAllowed) :=
    fun ⟨hp, hm⟩ => hne.elim (· hp) (· hm)
  cases step_effect hs with
  | reset hh => exact .inl ⟨_, hh⟩
  | execute hi hg he =>
    rcases exec_flags he with hf | ⟨c, a, b, ht⟩
    · exact absurd hf changed
    · exact .inr ⟨c, a, b, _, ht, .inl ⟨hi, hg⟩⟩
  | direct hh _ _ hd he =>
    rcases exec_flags he with hf | ⟨c, a, b, ht⟩
    · exact absurd hf changed
    · exact .inr ⟨c, a, b, _, ht, .inr ⟨_, _, hh, hd⟩⟩
  | _ => exact absurd ⟨rfl, rfl⟩ changed

/-- Settles O49, by the kinds of instruction. -/
theorem writersOfAccAndDat : Obligations.WritersOfAccAndDat := by
  intro i s t h
  exact ⟨(exec_dat h).resolve_left, (exec_acc h).resolve_left⟩

/-- Settles O3. -/
theorem resetMeetsInvariant : Obligations.ResetMeetsInvariant :=
  ⟨⟨zero_inRange, zero_inRange, trivial⟩, ⟨Memory.initial_wf, Nat.zero_le _⟩,
    ⟨nofun, iff_of_false nofun (not_not_intro rfl), fun _ => rfl⟩⟩

/-- Settles O7, by the read-after-write rules of program memory. -/
theorem loadWordStoresOneSlot : Obligations.LoadWordStoresOneSlot := by
  intro s i w rest hh ha
  rw [step_host hh, hostTurn]
  rcases hostLoadWord_cases i w { s with host := rest } with ⟨ha', -⟩ | ⟨-, hi, hs⟩ | ⟨-, hi, hs⟩
  · exact absurd ha' (Bool.eq_false_iff.1 ha)
  · refine ⟨fun _ => ⟨_, hs, rfl, rfl, Memory.read_write_same _ w hi, ?_⟩, fun h => absurd hi h.not_gt⟩
    exact fun j hj => Memory.read_write_other _ w hj
  · exact ⟨fun h => absurd h hi.not_gt, fun _ => hs⟩

/-- Settles O8. -/
theorem setProgLenWritesUpToCapacity : Obligations.SetProgLenWritesUpToCapacity := by
  intro s n rest hh ha hm
  rw [step_host hh, hostTurn]
  rcases hostSetProgLen_cases n { s with host := rest } with ⟨-, hn, hs⟩ | ⟨hn, hs⟩ <;> rw [hs]
  · exact ⟨fun _ => ⟨_, rfl, rfl, progLen_toNat (hn.trans hm)⟩, fun h => absurd hn h.not_ge⟩
  · have hn : s.mem.slots < n := hn.resolve_left (Bool.eq_false_iff.1 ha)
    exact ⟨fun h => absurd h hn.not_ge, fun _ => rfl⟩

/-- Settles O9, by the guard of each command. -/
theorem commandsIgnoredWhileActive : Obligations.CommandsIgnoredWhileActive := by
  intro s rest
  refine ⟨fun ha => ?_, step_host, fun r hh => ?_⟩
  · have ha : ({ s with host := rest } : State).active = true := ha
    refine ⟨fun i w hh => ?_, fun n hh => ?_, fun hh => ?_, fun w hh => ?_⟩ <;> rw [step_host hh, hostTurn]
    · rw [hostLoadWord_active i w ha]
    · rw [hostSetProgLen_active n ha]
    · rw [hostRun_active ha]
    · rw [hostExecDirect_active w ha]
  · rw [step_command hh, hostTurn, hostReadReg, readHostReg_afterTurn, afterTurn, hh, List.tail_cons]

/-- Settles O10, field by field of the two registers. -/
theorem statusAndFaultRegisterBits : Obligations.StatusAndFaultRegisterBits := by
  intro s
  obtain ⟨hkind, hactive, hpin, hduration, hupper⟩ := status_fields s
  obtain ⟨hcode, hzero, hpc, hfupper⟩ := fault_fields s
  rw [hkind, hpin, hduration, hcode]
  refine ⟨?_, hactive, ?_, fun d hs hd => ?_, fun hs => ?_, hupper, ?_, hzero, hpc, hfupper⟩
  · cases s.status <;> rfl
  · rcases s.status with _ | _ | (_ | _ | _ | _) | _ <;> rfl
  · rw [hs, statusDuration, toInt_ofInt_of_inRange le_rfl hd]
  · cases h : s.status with
    | blockedOnTime d => exact absurd h (hs d)
    | _ => rfl
  · rcases s.faultCode with _ | (_ | _ | _ | _) <;> rfl

/-- Settles O11. -/
theorem valueRegisterViews : Obligations.ValueRegisterViews := fun s =>
  ⟨readHostReg_progLen_toNat s, readHostReg_pc_toNat s, toInt_ofInt_of_inRange (by decide),
    toInt_ofInt_of_inRange (by decide), readHostReg_flags_toNat s⟩

/-- Settles O35: a pin's answer reaches the core through `resolvedOf`. -/
theorem registerReads : Obligations.RegisterReads := by
  intro s
  refine ⟨rfl, rfl, rfl, fun _ => rfl, fun _ => rfl, fun p => ⟨PinPort.afterRead_log _ p, ?_, ?_⟩⟩
  · intro v ha
    rw [readReg, pinRead, ha, resolvedOf]
  · intro ha
    rw [readReg, pinRead, ha, resolvedOf]

/-- Settles O36. -/
theorem registerWrites : Obligations.RegisterWrites := fun _ _ => ⟨rfl, rfl, rfl, fun _ => rfl⟩

end Sys2Proof.Proofs
end

section
/-! Proofs of the statements of spec/20_memory.md: words as bytes, what a step does to program memory,
the two pin providers, and the pin accesses and retries of an executed instruction. -/

namespace Sys2Proof

/-! ## Words as bytes -/

/-- The four bytes of a word, highest first, are the word (R53). -/
theorem append_bytes (w : Word) :
    w.extractLsb' 24 8 ++ w.extractLsb' 16 8 ++ w.extractLsb' 8 8 ++ w.extractLsb' 0 8 = w := by
  rw [BitVec.extractLsb'_append_extractLsb'_eq_extractLsb',
    BitVec.extractLsb'_append_extractLsb'_eq_extractLsb',
    BitVec.extractLsb'_append_extractLsb'_eq_extractLsb', BitVec.extractLsb'_eq_self] <;> rfl

theorem wordOfBytes_wordBytes (w : Word) : wordOfBytes (wordBytes w) = some w :=
  congrArg some (append_bytes w)

theorem decodeBytes_wordBytes_append (n : ProgLen) (w : Word) (rest : List (BitVec 8)) :
    decodeBytes n (wordBytes w ++ rest) = some (decode w n, rest) :=
  congrArg (fun v => some (decode v n, rest)) (append_bytes w)

theorem wordBytes_getElem? (w : Word) {k : Nat} (h : k < 4) :
    (wordBytes w)[k]? = some (w.extractLsb' (8 * k) 8) := by
  match k, h with
  | 0, _ | 1, _ | 2, _ | 3, _ => rfl

end Sys2Proof

namespace Sys2Proof.Machine

open Sys2Proof.Safety

variable {s t : State} {i : Instr}

/-! ## Program memory -/

/-- Reading any slot after a write to one that exists. -/
theorem Memory.read_write (m : Memory) {n : Nat} (w : Word) (h : n < m.slots) (j : Nat) :
    (m.write n w).read j = if j = n then some w else m.read j := by
  by_cases hj : j = n
  · rw [if_pos hj, hj, m.read_write_same w h]
  · rw [if_neg hj, m.read_write_other w hj]

/-- A step keeps program memory, or is a `LoadWord` into a slot that exists, on a stopped core (R37). -/
theorem step_mem (h : step s = .next t) :
    t.mem = s.mem ∨
      ∃ n w rest, s.host = .loadWord n w :: rest ∧ s.active = false ∧ n < s.mem.slots ∧
        t.mem = s.mem.write n w := by
  cases step_effect h with
  | execute _ _ he => exact .inl (exec_controlKept he).mem
  | direct _ _ _ _ he => exact .inl (exec_controlKept he).mem
  | loadWord hh ha hn => exact .inr ⟨_, _, _, hh, ha, hn, rfl⟩
  | _ => exact .inl rfl

/-! ## The pin providers -/

section

variable {q : PinPort} {p : Pin}

theorem PinPort.afterRead_stub (h : q.provider = .stub) (p : Pin) :
    q.afterRead p = { q with log := q.log ++ [.read p (.value 0)] } := by
  simp only [PinPort.afterRead, h, PinPort.answer_stub h]

/-- The external provider's first answer for the pin is taken from behind other pins' answers. -/
theorem PinPort.read_scripted {front rest : List (Pin × PinAnswer)} {a : PinAnswer}
    (h : q.provider = .external) (hf : ∀ x ∈ front, x.1 ≠ p)
    (hs : q.script = front ++ (p, a) :: rest) :
    q.answer p = a ∧
      q.afterRead p
        = { q with script := front ++ rest, reads := q.reads + 1, log := q.log ++ [.read p a] } := by
  obtain ⟨hnext, hdrop⟩ := scripted_behind hf rest a
  have ha : q.answer p = a := by simp only [PinPort.answer, h, hs, hnext]
  refine ⟨ha, ?_⟩
  simp only [PinPort.afterRead, h, ha, hs, hdrop]

/-- Without an answer scripted for the pin the external provider gives its free one (I8). -/
theorem PinPort.read_free (h : q.provider = .external) (hs : ∀ x ∈ q.script, x.1 ≠ p) :
    q.answer p = freeAnswer q.reads p ∧
      q.afterRead p
        = { q with reads := q.reads + 1, log := q.log ++ [.read p (freeAnswer q.reads p)] } := by
  obtain ⟨hnone, hdrop⟩ := scripted_absent hs
  have ha : q.answer p = freeAnswer q.reads p := by simp only [PinPort.answer, h, hnone]
  refine ⟨ha, ?_⟩
  simp only [PinPort.afterRead, h, ha, hdrop]

theorem PinPort.giveBack_unconsumed (h : q.readConsumes = false) (p : Pin) (a : PinAnswer) :
    q.giveBack p a = { q with script := (p, a) :: q.script } := by
  simp [PinPort.giveBack, h]

/-- An answer given back is the provider's next one for its pin (R59). -/
theorem PinPort.answer_giveBack (he : q.provider = .external) (h : q.readConsumes = false) (p : Pin)
    (a : PinAnswer) : (q.giveBack p a).answer p = a := by
  have hs : (q.giveBack p a).script = [] ++ (p, a) :: q.script := by
    rw [giveBack_unconsumed h, List.nil_append]
  exact (PinPort.read_scripted ((q.giveBack_provider p a).trans he) (List.forall_mem_nil _) hs).1

theorem freeAnswer_value {n : Nat} {v : Int} (h : Config.pinAnswer n p = some v) :
    freeAnswer n p = .value v := by
  rw [freeAnswer, h]

theorem freeAnswer_dataNotAvailable {n : Nat} (h : Config.pinAnswer n p = none) :
    freeAnswer n p = .dataNotAvailable := by
  rw [freeAnswer, h]

end

/-- Resolving a pin operand, by what the read does to the port: an answered value reaches the core
saturated (R55). -/
theorem resolve_pin_value {p : Pin} {v : Int} {q : PinPort} (ha : s.pins.answer p = .value v)
    (hq : s.pins.afterRead p = q) :
    resolve (.reg (.pin p)) s = (.value (max (-999) (min 999 v)), { s with pins := q }) := by
  rw [resolve, readReg, pinRead, ha, hq, resolvedOf, sat_eq_clamp]

theorem resolve_pin_dataNotAvailable {p : Pin} {q : PinPort}
    (ha : s.pins.answer p = .dataNotAvailable) (hq : s.pins.afterRead p = q) :
    resolve (.reg (.pin p)) s = (.unavailable p, { s with pins := q }) := by
  rw [resolve, readReg, pinRead, ha, hq, resolvedOf]

/-! ## The pin accesses of an instruction -/

/-- The port's record goes on from `s` to `t` with at most `n` reads and nothing else. -/
def ReadsPins (n : Nat) (s t : State) : Prop :=
  ∃ reads : List PinEvent,
    t.pins.log = s.pins.log ++ reads ∧ reads.length ≤ n ∧ ∀ e ∈ reads, ∃ p a, e = .read p a

/-- The port's record goes on from `s` to `t` with at most one write and nothing else. -/
def WritesPins (s t : State) : Prop :=
  ∃ writes : List PinEvent,
    t.pins.log = s.pins.log ++ writes ∧ writes.length ≤ 1 ∧ ∀ e ∈ writes, ∃ p v, e = .write p v

/-- At most two reads, then at most one write (R58). -/
def AccessesPins (s t : State) : Prop := ∃ u, ReadsPins 2 s u ∧ WritesPins u t

theorem readsPins_of_log (h : t.pins.log = s.pins.log) (n : Nat) : ReadsPins n s t :=
  ⟨[], by rw [h, List.append_nil], Nat.zero_le n, nofun⟩

theorem writesPins_of_log (h : t.pins.log = s.pins.log) : WritesPins s t :=
  ⟨[], by rw [h, List.append_nil], Nat.zero_le 1, nofun⟩

theorem ReadsPins.trans {u : State} {m n : Nat} (h : ReadsPins m s t) (h' : ReadsPins n t u) :
    ReadsPins (m + n) s u := by
  obtain ⟨reads, hl, hn, hr⟩ := h
  obtain ⟨reads', hl', hn', hr'⟩ := h'
  refine ⟨reads ++ reads', by rw [hl', hl, List.append_assoc], ?_, fun e he => ?_⟩
  · rw [List.length_append]
    exact Nat.add_le_add hn hn'
  · exact (List.mem_append.1 he).elim (hr e) (hr' e)

theorem ReadsPins.mono {m n : Nat} (h : ReadsPins m s t) (hmn : m ≤ n) : ReadsPins n s t := by
  obtain ⟨reads, hl, hn, hr⟩ := h
  exact ⟨reads, hl, hn.trans hmn, hr⟩

/-- An operand makes at most one read (R27). -/
theorem resolve_readsPins {o : Operand} {r : Resolved} (h : resolve o s = (r, t)) :
    ReadsPins 1 s t := by
  rcases resolve_cases h with ⟨rfl, -⟩ | ⟨p, -, -, rfl⟩
  · exact readsPins_of_log rfl 1
  · exact ⟨[.read p (s.pins.answer p)], by simp, le_rfl, fun e he => ⟨p, _, List.mem_singleton.1 he⟩⟩

theorem writeReg_writesPins (d : Reg) (v : Int) (s : State) : WritesPins s (writeReg d v s) := by
  cases d with
  | acc => exact writesPins_of_log rfl
  | dat => exact writesPins_of_log rfl
  | null => exact writesPins_of_log rfl
  | pin p => exact ⟨[.write p v], by simp [writeReg], le_rfl, fun e he => ⟨p, v, List.mem_singleton.1 he⟩⟩

/-- An instruction without operands makes no read. -/
theorem accessesPins_of_log (h : t.pins.log = s.pins.log) : AccessesPins s t :=
  ⟨t, readsPins_of_log h 2, writesPins_of_log rfl⟩

/-- A one-operand instruction makes its one read before its effect. -/
theorem withOperand_accessesPins {a : Operand} {f : Int → State → State}
    (h : withOperand a s (fun v s₁ => .next (f v s₁)) = .next t) (hf : ∀ v s, WritesPins s (f v s)) :
    AccessesPins s t := by
  rcases withOperand_cases a s with ⟨v, s₁, hr, hw⟩ | ⟨p, s₁, hr, hw⟩ <;> rw [hw] at h <;> cases h
  · exact ⟨s₁, (resolve_readsPins hr).mono one_le_two, hf v s₁⟩
  · exact ⟨s₁, (resolve_readsPins hr).mono one_le_two, writesPins_of_log rfl⟩

/-- A two-operand instruction makes its two reads before its effect. -/
theorem withOperands_accessesPins {a b : Operand} {f : Int → Int → State → State}
    (h : withOperands a b s (fun x y s₁ => .next (f x y s₁)) = .next t)
    (hf : ∀ x y s, WritesPins s (f x y s)) : AccessesPins s t := by
  rcases withOperands_cases a b s with ⟨x, y, s₁, s₂, ha, hb, hw⟩ | ⟨p, s₁, ha, hw⟩ |
    ⟨x, p, s₁, s₂, ha, hb, hw⟩ <;> rw [hw] at h <;> cases h
  · exact ⟨s₂, (resolve_readsPins ha).trans (resolve_readsPins hb), hf x y s₂⟩
  · exact ⟨s₁, (resolve_readsPins ha).mono one_le_two, writesPins_of_log rfl⟩
  · exact ⟨s₂, (resolve_readsPins ha).trans (resolve_readsPins hb), writesPins_of_log (by simp)⟩

theorem exec_accessesPins (h : exec i s = .next t) : AccessesPins s t := by
  cases i with
  | nop c => cases h; exact accessesPins_of_log rfl
  | mov c src d => exact withOperand_accessesPins h (writeReg_writesPins d)
  | jmp c target => cases h; exact accessesPins_of_log rfl
  | slp c x => exact withOperand_accessesPins h fun _ _ => writesPins_of_log rfl
  | slx c p => cases h; exact accessesPins_of_log rfl
  | add c x => exact withOperand_accessesPins h fun _ _ => writesPins_of_log rfl
  | sub c x => exact withOperand_accessesPins h fun _ _ => writesPins_of_log rfl
  | mul c x => exact withOperand_accessesPins h fun _ _ => writesPins_of_log rfl
  | not c => cases h; exact accessesPins_of_log rfl
  | dgt c x => exact withOperand_accessesPins h fun _ _ => writesPins_of_log rfl
  | dst c x y => exact withOperands_accessesPins h fun _ _ _ => writesPins_of_log rfl
  | teq c a b => exact withOperands_accessesPins h fun _ _ _ => writesPins_of_log rfl
  | tgt c a b => exact withOperands_accessesPins h fun _ _ _ => writesPins_of_log rfl
  | tlt c a b => exact withOperands_accessesPins h fun _ _ _ => writesPins_of_log rfl
  | tcp c a b => exact withOperands_accessesPins h fun _ _ _ => writesPins_of_log rfl

/-! ## The retry of an instruction of two value operands -/

/-- The five instructions of two value operands differ only in what they do with the values. -/
theorem exec_eq_withOperands {c : Cond} {a b : Operand}
    (hi : i = .dst c a b ∨ i = .teq c a b ∨ i = .tgt c a b ∨ i = .tlt c a b ∨ i = .tcp c a b) :
    ∃ k, ∀ s, exec i s = withOperands a b s k := by
  rcases hi with rfl | rfl | rfl | rfl | rfl <;> exact ⟨_, fun _ => rfl⟩

/-- The retry of a state that kept the fetch latch (R186). -/
theorem retry_of_controlKept (h : ControlKept s t) (p : Pin) :
    retry p t = { t with pc := s.ipc, status := .blockedOnInput p, active := false } := by
  rw [← h.ipc]
  rfl

end Sys2Proof.Machine

namespace Sys2Proof.Proofs

open Sys2Proof.Machine Sys2Proof.Safety

/-- Settles O42: operands only read, and what follows them makes at most one write. -/
theorem pinAccessesOfOneInstruction : Obligations.PinAccessesOfOneInstruction := by
  intro i s t h
  obtain ⟨u, ⟨reads, hr, hrn, hre⟩, ⟨writes, hw, hwn, hwe⟩⟩ := exec_accessesPins h
  exact ⟨reads, writes, by rw [hw, hr], hrn, hwn, hre, hwe⟩

/-- Settles O50, by the effects of a step. -/
theorem onlyLoadWordWritesProgramMemory : Obligations.OnlyLoadWordWritesProgramMemory := by
  intro s t h
  rcases step_mem h with hm | ⟨n, w, rest, hh, ha, hn, hm⟩ <;> rw [hm]
  · exact ⟨rfl, .inl rfl⟩
  · exact ⟨rfl, .inr ⟨n, w, rest, hh, ha, s.mem.read_write w hn⟩⟩

/-- Settles O37: the stub's one answer is the value 0. -/
theorem stubReadsZero : Obligations.StubReadsZero := by
  refine ⟨rfl, fun s hp => ⟨fun p => ?_, fun _ _ => rfl, fun o p s₁ h => ?_⟩⟩
  · exact resolve_pin_value (PinPort.answer_stub hp p) (PinPort.afterRead_stub hp p)
  · obtain ⟨-, ha, -⟩ := resolve_unavailable h
    rw [PinPort.answer_stub hp] at ha
    cases ha

/-- Settles O38, by the two sources of an answer, the script and the free value. -/
theorem externalReadSaturates : Obligations.ExternalReadSaturates := by
  intro s p front rest hp hf
  refine ⟨fun v hs => ?_, fun hs => ?_, fun hs => ?_⟩
  · obtain ⟨ha, hq⟩ := PinPort.read_scripted hp hf hs
    exact resolve_pin_value ha hq
  · obtain ⟨ha, hq⟩ := PinPort.read_scripted hp hf hs
    exact resolve_pin_dataNotAvailable ha hq
  · obtain ⟨ha, hq⟩ := PinPort.read_free hp (hs ▸ hf)
    refine ⟨fun v hv => ?_, fun hv => ?_⟩
    · rw [freeAnswer_value hv] at ha hq
      exact resolve_pin_value ha hq
    · rw [freeAnswer_dataNotAvailable hv] at ha hq
      exact resolve_pin_dataNotAvailable ha hq

/-- Settles O39: resolving and discarding keep the latch from which the retry takes `pc`. -/
theorem twoOperandRetry : Obligations.TwoOperandRetry := by
  intro c a b s s₁ s₂ p i hi
  obtain ⟨k, hk⟩ := exec_eq_withOperands hi
  rw [hk]
  refine ⟨fun ha => ?_, fun x ha hb => ?_⟩
  · rw [withOperands_unavailable_left b ha, retry_of_controlKept (resolve_controlKept ha)]
  · have kept : ControlKept s (discardRead a s s₂) :=
      ((resolve_controlKept ha).trans (resolve_controlKept hb)).trans (discardRead_controlKept a s s₂)
    rw [withOperands_unavailable_right ha hb, retry_of_controlKept kept]

/-- Settles O40: a discarded answer is consumed or given back. -/
theorem discardedReadFollowsProvider : Obligations.DiscardedReadFollowsProvider := by
  refine ⟨fun s s₁ o ho => ?_, fun s s₁ p hp => ⟨discardRead_consumed _ s, fun hc => ⟨?_, ?_⟩⟩⟩
  · rcases o with v | (_ | _ | _ | p)
    · rfl
    · rfl
    · rfl
    · rfl
    · exact absurd rfl (ho p)
  · exact PinPort.answer_giveBack hp hc p _
  · rw [discardRead, PinPort.giveBack_unconsumed hc]

/-- Settles O60. -/
theorem wordBytesLittleEndian : Obligations.WordBytesLittleEndian := fun w n rest =>
  ⟨fun _ => wordBytes_getElem? w, wordOfBytes_wordBytes w, decodeBytes_wordBytes_append n w rest⟩

end Sys2Proof.Proofs
end

section
/-! Proofs of the statements of spec/30_encoding.md: the two round trips of the encoding, and the words
the decoder rejects. -/

namespace Sys2Proof

/-! ## The round trips -/

/-- The encoding of a well-formed instruction decodes back, but for the check of the jump target. -/
theorem decodeFields_encode {i : Instr} (h : i.wf = true) : decodeFields (encode i) = .ok i := by
  cases i with
  | nop c => exact Laws.EncodeFields.nop c h
  | mov c src d => exact Laws.EncodeFields.mov c src d h
  | jmp c t => exact Laws.EncodeFields.jmp c t h
  | slp c x => exact Laws.EncodeFields.slp c x h
  | slx c p => exact Laws.EncodeFields.slx c p h
  | add c x => exact Laws.EncodeFields.add c x h
  | sub c x => exact Laws.EncodeFields.sub c x h
  | mul c x => exact Laws.EncodeFields.mul c x h
  | not c => exact Laws.EncodeFields.not c h
  | dgt c x => exact Laws.EncodeFields.dgt c x h
  | dst c x y => exact Laws.EncodeFields.dst c x y h
  | teq c a b => exact Laws.EncodeFields.teq c a b h
  | tgt c a b => exact Laws.EncodeFields.tgt c a b h
  | tlt c a b => exact Laws.EncodeFields.tlt c a b h
  | tcp c a b => exact Laws.EncodeFields.tcp c a b h

theorem decode_of_decodeFields {w : Word} {i : Instr} (h : decodeFields w = .ok i) (n : ProgLen) :
    decode w n = if i.targetOk n then .ok i else .error .jumpTarget := by
  rw [decode, h]

/-- A word with its reserved bits zero is put together from its fields (R71). -/
theorem wordOf_fields {w : Word} {c : Cond} (hr : resField w = 0) (hc : condField w = encodeCond c) :
    wordOf (opField w) c (aField w) (bField w) = w :=
  word_eq_of_fields (opField_wordOf ..) ((condField_wordOf ..).trans hc.symm) (aField_wordOf ..)
    (bField_wordOf ..) ((resField_wordOf ..).trans hr.symm)

/-- The fields of a decoded instruction are those of its encoding. -/
theorem encode_of_decodeOp {op : BitVec 4} {c : Cond} {a b : Field} {i : Instr}
    (h : decodeOp op c a b = .ok i) : encode i = wordOf op c a b := by
  suffices hw : encode i = wordOf (BitVec.ofNat 4 op.toNat) c a b by simpa using hw
  unfold decodeOp at h
  generalize op.toNat = k at h ⊢
  split at h
  · obtain ⟨rfl, rfl, rfl⟩ := decodeZZ_ok h; rfl
  · obtain ⟨x, r, rfl, rfl, -, rfl⟩ := decodeVD_ok h; rfl
  · obtain ⟨rfl, rfl⟩ := decodeT_ok h; rfl
  · obtain ⟨x, rfl, rfl, -, rfl⟩ := decodeV_ok h; rfl
  · obtain ⟨p, rfl, rfl, rfl⟩ := decodeP_ok h; rfl
  · obtain ⟨x, rfl, rfl, -, rfl⟩ := decodeV_ok h; rfl
  · obtain ⟨x, rfl, rfl, -, rfl⟩ := decodeV_ok h; rfl
  · obtain ⟨x, rfl, rfl, -, rfl⟩ := decodeV_ok h; rfl
  · obtain ⟨rfl, rfl, rfl⟩ := decodeZZ_ok h; rfl
  · obtain ⟨x, rfl, rfl, -, rfl⟩ := decodeV_ok h; rfl
  · obtain ⟨x, y, rfl, rfl, -, rfl, -⟩ := decodeVV_ok h; rfl
  · obtain ⟨x, y, rfl, rfl, -, rfl, -⟩ := decodeVV_ok h; rfl
  · obtain ⟨x, y, rfl, rfl, -, rfl, -⟩ := decodeVV_ok h; rfl
  · obtain ⟨x, y, rfl, rfl, -, rfl, -⟩ := decodeVV_ok h; rfl
  · obtain ⟨x, y, rfl, rfl, -, rfl, -⟩ := decodeVV_ok h; rfl
  · cases h

theorem encode_of_decodeFields {w : Word} {i : Instr} (h : decodeFields w = .ok i) : encode i = w := by
  obtain ⟨hr, -, c, hc, hop⟩ := decodeFields_ok h
  exact (encode_of_decodeOp hop).trans (wordOf_fields hr hc)

/-! ## Rejection -/

/-- The decoder, or a part of it, answers with a reason of R78. -/
def Rejects {α : Type} (x : Except Reject α) : Prop := ∃ e, x = .error e

section

variable {α β : Type} {x : Except Reject α} {f : α → Except Reject β}

@[simp] theorem rejects_error (e : Reject) : Rejects (.error e : Except Reject α) := ⟨e, rfl⟩

@[simp] theorem not_rejects_ok (a : α) : ¬ Rejects (.ok a) := nofun

/-- Where the second part's rejection does not depend on what the first part answers. -/
theorem rejects_bind {Q : Prop} (hf : ∀ a, Rejects (f a) ↔ Q) :
    Rejects (x >>= f) ↔ Rejects x ∨ Q := by
  cases x with
  | error e => exact iff_of_true (rejects_error e) (.inl (rejects_error e))
  | ok a => exact (hf a).trans (or_iff_right (not_rejects_ok a)).symm

@[simp] theorem rejects_map (g : α → β) : Rejects (x.map g) ↔ Rejects x := by
  cases x <;> simp [Except.map]

theorem rejects_ite {p : Prop} [Decidable p] {y : Except Reject α} :
    Rejects (if p then x else y) ↔ if p then Rejects x else Rejects y := by
  rw [apply_ite Rejects]

theorem rejects_iff_ne_ok : Rejects x ↔ ∀ a, x ≠ .ok a := by
  cases x <;> simp

end

/-! The fields of a word. -/

/-- Item (5) of R78, for a field in literal form. -/
def BadLiteral (o : Field) : Prop := formBit o = false ∧ ¬ InRange (literalBits o).toInt

/-- Items (6) and (7) of R78, for a field in register form. -/
def BadRegister (o : Field) : Prop := formBit o = true ∧ (paddingBits o ≠ 0 ∨ registerCode o = 3)

/-- No value operand (R75, class `V`). -/
def BadValue (o : Field) : Prop := BadLiteral o ∨ BadRegister o

/-- No destination (R75, class `D`). -/
def BadDestination (o : Field) : Prop := formBit o = false ∨ BadRegister o

/-- No pin: item (9) of R78, by the bits of R77. -/
def BadPin (o : Field) : Prop :=
  ¬ (formBit o = true ∧ paddingBits o = 0 ∧ o.getLsbD 2 = true)

section

variable {o a b : Field}

theorem rejects_decodeRegisterCode (c : BitVec 3) : Rejects (decodeRegisterCode c) ↔ c = 3 := by
  refine ⟨fun h => ?_, fun h => h ▸ rejects_error _⟩
  obtain ⟨e, he⟩ := h
  revert c
  cases e <;> decide

theorem rejects_decodeRegister :
    Rejects (decodeRegister o) ↔ paddingBits o ≠ 0 ∨ registerCode o = 3 := by
  rw [decodeRegister, rejects_ite, rejects_decodeRegisterCode]
  simp [imp_iff_not_or]

theorem rejects_decodeLiteral : Rejects (decodeLiteral o) ↔ ¬ InRange (literalBits o).toInt := by
  rw [decodeLiteral, rejects_ite]
  simp

@[simp] theorem rejects_decodeValue : Rejects (decodeValue o) ↔ BadValue o := by
  rw [decodeValue, rejects_ite, rejects_map, rejects_map, rejects_decodeRegister, rejects_decodeLiteral,
    BadValue, BadLiteral, BadRegister]
  cases formBit o <;> simp

@[simp] theorem rejects_decodeDestination : Rejects (decodeDestination o) ↔ BadDestination o := by
  rw [decodeDestination, rejects_ite, rejects_decodeRegister, BadDestination, BadRegister]
  cases formBit o <;> simp

/-- The register codes of the pins are those with bit 2 set (R74). -/
theorem registerCode_pin_of_bit : ∀ c : BitVec 3, c.getLsbD 2 = true →
    c = encodeRegisterCode (.pin .p0) ∨ c = encodeRegisterCode (.pin .p1) ∨
      c = encodeRegisterCode (.pin .x0) ∨ c = encodeRegisterCode (.pin .x1) := by
  decide

theorem eq_encodeRegister_of_parts {r : Reg} (hf : formBit o = true) (hp : paddingBits o = 0)
    (hc : registerCode o = encodeRegisterCode r) : o = encodeRegister r := by
  obtain ⟨h₁, h₂, h₃⟩ := encodeRegister_parts r
  exact field_eq_of_register_parts (hf.trans h₁.symm) (hp.trans h₂.symm) (hc.trans h₃.symm)

theorem exists_pin_field_iff :
    (∃ p, o = encodeRegister (.pin p)) ↔
      formBit o = true ∧ paddingBits o = 0 ∧ o.getLsbD 2 = true := by
  constructor
  · rintro ⟨p, rfl⟩
    cases p <;> decide
  · rintro ⟨hf, hp, h2⟩
    have hc : (registerCode o).getLsbD 2 = true := by simpa [registerCode] using h2
    rcases registerCode_pin_of_bit _ hc with hc | hc | hc | hc
    all_goals exact ⟨_, eq_encodeRegister_of_parts hf hp hc⟩

@[simp] theorem rejects_decodePin : Rejects (decodePin o) ↔ BadPin o := by
  have hok (p : Pin) : decodePin o = .ok p ↔ o = encodeRegister (.pin p) :=
    ⟨decodePin_ok, fun h => h ▸ decodePin_encodeRegister p⟩
  simp only [rejects_iff_ne_ok, BadPin, ← exists_pin_field_iff, ne_eq, hok, not_exists]

@[simp] theorem rejects_decodeUnused : Rejects (decodeUnused o) ↔ o ≠ 0 := by
  rw [decodeUnused, rejects_ite]
  simp

/-! The operand shapes: the last field's decoding is mapped into the instruction. -/

theorem rejects_decodeV {mk : Operand → Instr} : Rejects (decodeV mk a b) ↔ BadValue a ∨ b ≠ 0 := by
  rw [← rejects_decodeValue, ← rejects_decodeUnused]
  exact rejects_bind fun _ => rejects_map _

theorem rejects_decodeVV {mk : Operand → Operand → Instr} :
    Rejects (decodeVV mk a b) ↔ BadValue a ∨ BadValue b := by
  rw [← rejects_decodeValue, ← rejects_decodeValue]
  exact rejects_bind fun _ => rejects_map _

theorem rejects_decodeZZ {i : Instr} : Rejects (decodeZZ i a b) ↔ a ≠ 0 ∨ b ≠ 0 := by
  rw [← rejects_decodeUnused, ← rejects_decodeUnused]
  exact rejects_bind fun _ => rejects_map _

theorem rejects_decodeVD {mk : Operand → Reg → Instr} :
    Rejects (decodeVD mk a b) ↔ BadValue a ∨ BadDestination b := by
  rw [← rejects_decodeValue, ← rejects_decodeDestination]
  exact rejects_bind fun _ => rejects_map _

theorem rejects_decodeT {mk : Slot → Instr} : Rejects (decodeT mk a b) ↔ b ≠ 0 := by
  rw [← rejects_decodeUnused]
  exact rejects_map _

theorem rejects_decodeP {mk : Pin → Instr} : Rejects (decodeP mk a b) ↔ BadPin a ∨ b ≠ 0 := by
  rw [← rejects_decodePin, ← rejects_decodeUnused]
  exact rejects_bind fun _ => rejects_map _

/-- Items (4) to (9) of R78, by the classes of the opcode map (R76). -/
def BadOperands (op : Nat) (a b : Field) : Prop :=
  (op ∈ [0, 8] ∧ a ≠ 0) ∨ (op ∈ [0, 2, 3, 4, 5, 6, 7, 8, 9] ∧ b ≠ 0) ∨
  (op ∈ [1, 3, 5, 6, 7, 9, 10, 11, 12, 13, 14] ∧ BadValue a) ∨
  (op ∈ [10, 11, 12, 13, 14] ∧ BadValue b) ∨ (op = 1 ∧ BadDestination b) ∨ (op = 4 ∧ BadPin a)

theorem rejects_decodeOp {op : BitVec 4} (h : op ≠ 15) (c : Cond) :
    Rejects (decodeOp op c a b) ↔ BadOperands op.toNat a b := by
  have hk : op.toNat ≠ 15 := fun hk => h (BitVec.eq_of_toNat_eq hk)
  have hlt := op.isLt
  unfold decodeOp
  generalize op.toNat = k at hk hlt ⊢
  split
  · simp [BadOperands, rejects_decodeZZ]
  · simp [BadOperands, rejects_decodeVD]
  · simp [BadOperands, rejects_decodeT]
  · simp [BadOperands, rejects_decodeV, or_comm]
  · simp [BadOperands, rejects_decodeP, or_comm]
  · simp [BadOperands, rejects_decodeV, or_comm]
  · simp [BadOperands, rejects_decodeV, or_comm]
  · simp [BadOperands, rejects_decodeV, or_comm]
  · simp [BadOperands, rejects_decodeZZ]
  · simp [BadOperands, rejects_decodeV, or_comm]
  · simp [BadOperands, rejects_decodeVV]
  · simp [BadOperands, rejects_decodeVV]
  · simp [BadOperands, rejects_decodeVV]
  · simp [BadOperands, rejects_decodeVV]
  · simp [BadOperands, rejects_decodeVV]
  · lia

end

/-! The whole word. -/

theorem rejects_decodeCond (c : BitVec 2) : Rejects (decodeCond c) ↔ c = 3 := by
  refine ⟨fun h => ?_, fun h => h ▸ rejects_error _⟩
  obtain ⟨e, he⟩ := h
  revert c
  cases e <;> decide

/-- Items (1) to (9) of R78. -/
theorem rejects_decodeFields (w : Word) :
    Rejects (decodeFields w) ↔
      resField w ≠ 0 ∨ opField w = 15 ∨ condField w = 3 ∨
        BadOperands (opField w).toNat (aField w) (bField w) := by
  rw [decodeFields, rejects_ite, rejects_ite]
  by_cases ho : opField w = 15
  · simp [ho, or_comm]
  · rw [rejects_bind fun c => rejects_decodeOp ho c, rejects_decodeCond]
    simp [imp_iff_not_or]

/-- A jump target is illegal exactly where the encoding is a `JMP` whose field A is not below PROG_LEN
(R80). -/
theorem targetOk_eq_false_iff (i : Instr) (n : ProgLen) :
    i.targetOk n = false ↔
      (opField (encode i)).toNat = 2 ∧ n.toNat ≤ (aField (encode i)).toNat := by
  cases i <;> simp [Instr.targetOk, encode]

/-- The ten items of R78: the last reads the target of the instruction from its word. -/
theorem rejects_decode (w : Word) (n : ProgLen) :
    Rejects (decode w n) ↔
      Rejects (decodeFields w) ∨ ((opField w).toNat = 2 ∧ n.toNat ≤ (aField w).toNat) := by
  cases h : decodeFields w with
  | error e => simp [decode, h]
  | ok i =>
    have htarget := targetOk_eq_false_iff i n
    rw [encode_of_decodeFields h] at htarget
    rw [decode_of_decodeFields h, rejects_ite, ← htarget]
    simp

end Sys2Proof

namespace Sys2Proof.Proofs

/-- Settles O56, from the per-instruction round trip of the fields. -/
theorem decodeOfEncode : Obligations.DecodeOfEncode := fun _ n h =>
  decode_of_decodeFields (decodeFields_encode h) n

/-- Settles O57: a word whose fields decode is put together from them. -/
theorem encodeOfDecode : Obligations.EncodeOfDecode := fun _ _ _ h =>
  have ⟨hfields, htarget⟩ := decode_ok h
  ⟨encode_of_decodeFields hfields, decode_wf h, htarget⟩

/-- Settles O58, field by field. -/
theorem illegalWordsAreTheTenItems : Obligations.IllegalWordsAreTheTenItems := by
  rintro w n _ _ _ rfl rfl rfl
  have h := rejects_decode w n
  rw [rejects_decodeFields] at h
  have hop : opField w = 15 ↔ (opField w).toNat = 15 := BitVec.toNat_inj.symm
  simp only [hop, BadOperands, or_assoc] at h
  exact h

/-- Settles O59, by running the decoder on each word. -/
theorem exampleWordsDecode : Obligations.ExampleWordsDecode := by
  unfold Obligations.ExampleWordsDecode
  decide

end Sys2Proof.Proofs
end

section
/-! Proofs of the statements of spec/40_bounded_integer.md: the laws of saturation, a digit put into the
decimal expansion of a natural number, and `set_digit_at` by its sign and its magnitude. -/

namespace Sys2Proof.Machine

/-! ## Saturation and the saturating operations -/

theorem sat_of_lt {x : Int} (h : x < -999) : sat x = -999 := if_pos h

theorem sat_of_gt {x : Int} (h : 999 < x) : sat x = 999 := by
  rw [sat, if_neg (by omega), if_pos h]

theorem sat_mono {x y : Int} (h : x ≤ y) : sat x ≤ sat y := by
  simp only [sat_eq_clamp]
  exact max_le_max_left _ (min_le_min_left _ h)

theorem aluAdd_comm (a b : Int) : aluAdd a b = aluAdd b a := congrArg sat (Int.add_comm a b)

theorem aluMul_comm (a b : Int) : aluMul a b = aluMul b a := congrArg sat (Int.mul_comm a b)

/-- The range of a datum is symmetric, so that negation never overflows (R105). -/
theorem neg_inRange {a : Int} (h : InRange a) : InRange (-a) := by
  obtain ⟨hlow, hhigh⟩ := h
  constructor <;> omega

theorem inRange_iff_natAbs (v : Int) : InRange v ↔ v.natAbs ≤ 999 := by omega

/-! ## A digit put into a decimal expansion -/

/-- The number `m` with the decimal digit at place `i` replaced by `d`: what stands above the place, the
new digit, and what stands below it. -/
def putDigit (m i d : Nat) : Nat := 10 ^ i * (10 * (m / 10 ^ (i + 1)) + d) + m % 10 ^ i

section
variable {m n i j d : Nat}

theorem putDigit_div (m i d : Nat) : putDigit m i d / 10 ^ i = 10 * (m / 10 ^ (i + 1)) + d := by
  have hpos : 0 < 10 ^ i := Nat.pow_pos (by decide)
  rw [putDigit, Nat.mul_add_div hpos, Nat.div_eq_of_lt (Nat.mod_lt m hpos), Nat.add_zero]

/-- Below the place nothing changes. -/
theorem putDigit_mod (m i d : Nat) : putDigit m i d % 10 ^ i = m % 10 ^ i := by
  rw [putDigit, Nat.mul_add_mod, Nat.mod_mod]

/-- Above the place nothing changes. -/
theorem putDigit_div_succ (m i : Nat) (hd : d ≤ 9) :
    putDigit m i d / 10 ^ (i + 1) = m / 10 ^ (i + 1) := by
  have h := putDigit_div m i d
  calc putDigit m i d / 10 ^ (i + 1)
    _ = putDigit m i d / 10 ^ i / 10 := by rw [Nat.pow_succ, Nat.div_div_eq_div_mul]
    _ = m / 10 ^ (i + 1) := by omega

/-- Numbers with the same digits from a place upwards have them from every higher place upwards. -/
theorem div_pow_eq_of_le (h : m / 10 ^ i = n / 10 ^ i) (hij : i ≤ j) : m / 10 ^ j = n / 10 ^ j := by
  rw [← Nat.add_sub_cancel' hij, Nat.pow_add, ← Nat.div_div_eq_div_mul, h, Nat.div_div_eq_div_mul]

/-- Numbers with the same digits below a place have the same digit at each lower place. -/
theorem digit_eq_of_lt (h : m % 10 ^ i = n % 10 ^ i) (hji : j < i) :
    m / 10 ^ j % 10 = n / 10 ^ j % 10 := by
  have hmod : m % (10 ^ j * 10) = n % (10 ^ j * 10) := Nat.ModEq.of_dvd (Nat.pow_dvd_pow 10 hji) h
  rw [← Nat.mod_mul_right_div_self, hmod, Nat.mod_mul_right_div_self]

theorem putDigit_digit_same (m i : Nat) (hd : d ≤ 9) : putDigit m i d / 10 ^ i % 10 = d := by
  rw [putDigit_div]
  omega

theorem putDigit_digit_other (m : Nat) (hd : d ≤ 9) (hj : j ≠ i) :
    putDigit m i d / 10 ^ j % 10 = m / 10 ^ j % 10 := by
  rcases Nat.lt_or_gt_of_ne hj with hbelow | habove
  · exact digit_eq_of_lt (putDigit_mod m i d) hbelow
  · rw [div_pow_eq_of_le (putDigit_div_succ m i hd) habove]

theorem putDigit_lt_pow (hm : m < 10 ^ j) (hij : i < j) (hd : d ≤ 9) : putDigit m i d < 10 ^ j := by
  have hpos : 0 < 10 ^ j := Nat.pow_pos (by decide)
  rw [← Nat.div_eq_zero_iff_lt hpos] at hm ⊢
  rw [div_pow_eq_of_le (putDigit_div_succ m i hd) hij, hm]

/-- No magnitude of a datum leaves the range by a digit in its three places (R109). -/
theorem putDigit_natAbs_le {v : Int} (hv : InRange v) (hi : i ≤ 2) (hd : d ≤ 9) :
    putDigit v.natAbs i d ≤ 999 :=
  Nat.le_of_lt_succ (putDigit_lt_pow (j := 3) (by omega) (by omega) hd)

/-- `putDigit` is the model's replacement of a digit, whose subtraction is exact (R109). -/
theorem replaceDigit_natCast (m d : Nat) (hi : i ≤ 2) :
    replaceDigit m i d = (putDigit m i d : Int) := by
  have habove : m / 10 ^ i / 10 = m / 10 ^ (i + 1) := by rw [Nat.pow_succ, Nat.div_div_eq_div_mul]
  have hm : m = 10 ^ i * (10 * (m / 10 ^ (i + 1)) + m / 10 ^ i % 10) + m % 10 ^ i := by
    rw [← habove, Nat.div_add_mod, Nat.div_add_mod]
  rw [replaceDigit, if_pos (by omega), digitAt_eq (by omega), placeValue_eq, Int.toNat_natCast,
    Int.natAbs_natCast, putDigit]
  zify at hm ⊢
  linear_combination hm

end

/-! ## `set_digit_at` -/

theorem digitAt_natAbs (v i : Int) : digitAt (v.natAbs : Int) i = digitAt v i := rfl

theorem signOf_mul_natAbs (v : Int) : signOf v * (v.natAbs : Int) = v := by
  unfold signOf
  split <;> omega

theorem natAbs_signOf_mul (v : Int) (m : Nat) : (signOf v * (m : Int)).natAbs = m := by
  unfold signOf
  split <;> omega

/-- Over the range the sign alone decides. -/
theorem sat_signOf_mul (v : Int) {m : Int} (h : 999 < m) :
    sat (signOf v * m) = if v < 0 then -999 else 999 := by
  unfold signOf
  split
  · exact sat_of_lt (by omega)
  · exact sat_of_gt (by omega)

theorem clampDigit_of_nonpos {d : Int} (h : d ≤ 0) : clampDigit d = 0 := by
  unfold clampDigit
  omega

theorem clampDigit_of_ge_nine {d : Int} (h : 9 ≤ d) : clampDigit d = 9 := by
  unfold clampDigit
  omega

theorem clampDigit_of_digit {d : Int} (h₀ : 0 ≤ d) (h₉ : d ≤ 9) : clampDigit d = d := by
  unfold clampDigit
  omega

theorem one_le_clampDigit {d : Int} (h : 1 ≤ d) : 1 ≤ clampDigit d := by
  unfold clampDigit
  omega

/-- The digit enters only by its clamped value. -/
theorem setDigitAt_congr (v i : Int) {d e : Int} (h : clampDigit d = clampDigit e) :
    setDigitAt v i d = setDigitAt v i e := by
  rw [setDigitAt, setDigitAt, h]

/-- `set_digit_at` keeps the sign and puts the digit into the magnitude. -/
theorem setDigitAt_natCast {v : Int} {i d : Nat} (hv : InRange v) (hi : i ≤ 2) (hd : d ≤ 9) :
    setDigitAt v i d = signOf v * (putDigit v.natAbs i d : Int) := by
  have hle : putDigit v.natAbs i d ≤ 999 := putDigit_natAbs_le hv hi hd
  rw [setDigitAt_nonneg (by omega), clampDigit_of_digit (by omega) (by omega),
    replaceDigit_natCast _ _ hi]
  apply sat_of_inRange
  rwa [inRange_iff_natAbs, natAbs_signOf_mul]

theorem natAbs_setDigitAt {v : Int} {i d : Nat} (hv : InRange v) (hi : i ≤ 2) (hd : d ≤ 9) :
    (setDigitAt v i d).natAbs = putDigit v.natAbs i d := by
  rw [setDigitAt_natCast hv hi hd, natAbs_signOf_mul]

/-- The place value from index 3 on is outside the three places of a datum. -/
theorem thousand_le_placeValue {i : Int} (h : 3 ≤ i) : 1000 ≤ placeValue i := by
  have hpow : 10 ^ 3 ≤ 10 ^ i.toNat := Nat.pow_le_pow_right (by decide) (by omega)
  rw [placeValue_eq]
  omega

theorem setDigitAt_high {v i : Int} (d : Int) (h : 3 ≤ i) :
    setDigitAt v i d = sat (signOf v * (v.natAbs + clampDigit d * placeValue i)) := by
  rw [setDigitAt_nonneg (by omega), replaceDigit, if_neg (by omega)]

theorem setDigitAt_high_zero {v i d : Int} (hv : InRange v) (hi : 3 ≤ i) (hd : d ≤ 0) :
    setDigitAt v i d = v := by
  rw [setDigitAt_high d hi, clampDigit_of_nonpos hd, Int.zero_mul, Int.add_zero, signOf_mul_natAbs,
    sat_of_inRange hv]

theorem setDigitAt_high_pos {v i d : Int} (hi : 3 ≤ i) (hd : 1 ≤ d) :
    setDigitAt v i d = if v < 0 then -999 else 999 := by
  have hplace := thousand_le_placeValue hi
  have hput : placeValue i ≤ clampDigit d * placeValue i :=
    le_mul_of_one_le_left (by omega) (one_le_clampDigit hd)
  rw [setDigitAt_high d hi]
  exact sat_signOf_mul v (by omega)

/-- From index 3 on a datum has only zeros (R108). -/
theorem digitAt_high {v i : Int} (hv : InRange v) (hi : 3 ≤ i) : digitAt v i = 0 := by
  have hplace := thousand_le_placeValue hi
  rw [placeValue_eq] at hplace
  rw [digitAt_eq (by omega), Nat.div_eq_of_lt (by omega)]
  rfl

end Sys2Proof.Machine

namespace Sys2Proof.Proofs

open Sys2Proof.Machine

/-- Settles O53, by one division and one remainder in place of the repeated division. -/
theorem digitAtIsDecimalDigit : Obligations.DigitAtIsDecimalDigit := fun v i =>
  have ⟨hlow, hhigh⟩ := digitAt_digit v i
  ⟨digitAt_eq, hlow, hhigh, digitAt_neg, digitAt_high⟩

/-- Settles O54, on the decimal expansion of the magnitude. -/
theorem setDigitKeepsOtherDigits : Obligations.SetDigitKeepsOtherDigits := by
  intro v i d hv hi₀ hi hd₀ hd
  lift i to Nat using hi₀
  lift d to Nat using hd₀
  norm_cast at hi hd
  have habs := natAbs_setDigitAt hv hi hd
  refine ⟨?_, ?_, ?_, ?_, ?_, ?_⟩
  · rw [digitAt_eq (by omega), habs, Int.toNat_natCast, putDigit_digit_same _ _ hd]
  · intro j hj₀ _ hj
    rw [digitAt_eq hj₀, digitAt_eq hj₀, habs, putDigit_digit_other _ hd (by omega)]
  · intro hpos
    rw [setDigitAt_natCast hv hi hd, signOf, if_neg (by omega)]
    omega
  · intro hneg
    rw [setDigitAt_natCast hv hi hd, signOf, if_pos hneg]
    omega
  · rw [habs]
    exact putDigit_natAbs_le hv hi hd
  · rw [setDigitAt_natCast hv hi hd, ← replaceDigit_natCast _ _ hi, replaceDigit, if_pos (by omega),
      digitAt_natAbs]
    rfl

/-- Settles O55: the digit enters clamped, and from index 3 on any digit but 0 leaves the range. -/
theorem setDigitOutsideThePlaces : Obligations.SetDigitOutsideThePlaces := fun v i _ hv =>
  ⟨fun hd => setDigitAt_congr v i (clampDigit_of_nonpos (by omega)),
    fun hd => setDigitAt_congr v i (clampDigit_of_ge_nine (by omega)),
    setDigitAt_neg, setDigitAt_high_zero hv, setDigitAt_high_pos⟩

/-- Settles O51, from the closed form of saturation as a minimum and a maximum. -/
theorem saturationClampsAndIsMonotone : Obligations.SaturationClampsAndIsMonotone :=
  ⟨fun x => ⟨sat_of_lt, sat_of_gt, sat_of_inRange, sat_inRange x, sat_of_inRange (sat_inRange x)⟩,
    fun _ _ => sat_mono⟩

/-- Settles O52: each exact result on a datum is in range again. -/
theorem saturatingAluLaws : Obligations.SaturatingAluLaws := by
  refine ⟨fun a b => ⟨aluAdd_comm a b, aluMul_comm a b⟩, fun a ha => ?_, by decide, by decide⟩
  have hself : sat a = a := sat_of_inRange ha
  have hneg : sat (-a) = -a := sat_of_inRange (neg_inRange ha)
  have hzero : sat 0 = 0 := rfl
  simp only [aluAdd, aluSub, aluMul, Int.add_zero, Int.sub_zero, Int.mul_one, Int.sub_self,
    Int.zero_sub, Int.mul_neg, hself, hneg, hzero, and_self]

end Sys2Proof.Proofs
end

section
/-! Proofs of the statements of spec/41_move_control.md: how an executed instruction leaves the run, a cycle
without effect, an operand without data; then the statements. -/

namespace Sys2Proof.Machine

open Sys2Proof.Safety

variable {s t : State} {i : Instr}

/-! ## How an executed instruction leaves the run -/

/-- The instruction lets the run go on, and moves the counter only as a `JMP` (R122, R183). -/
def RunsOn (s t : State) (i : Instr) : Prop :=
  t.status = s.status ∧ t.active = s.active ∧ (t.pc = s.pc ∨ ∃ c, i = .jmp c t.pc)

/-- The core is blocked on time or on input, its run latch clear (R183, R186). -/
def Blocked (t : State) : Prop :=
  t.active = false ∧ ((∃ d, t.status = .blockedOnTime d) ∨ ∃ p, t.status = .blockedOnInput p)

theorem writeReg_runsOn (d : Reg) (v : Int) (s : State) (i : Instr) : RunsOn s (writeReg d v s) i := by
  cases d <;> exact ⟨rfl, rfl, .inl rfl⟩

/-- Only `SLP` and `SLX` block when they complete (R123, R124). -/
theorem completed_runsOn_or_blocked (h : Completed s t i) : RunsOn s t i ∨ Blocked t := by
  cases i with
  | nop | not => cases h; exact .inl ⟨rfl, rfl, .inl rfl⟩
  | jmp c target => cases h; exact .inl ⟨rfl, rfl, .inr ⟨c, rfl⟩⟩
  | mov c src d =>
    obtain ⟨v, s₁, -, rfl⟩ := h
    exact .inl (writeReg_runsOn d v (withPins s₁.pins s) _)
  | slp c time => obtain ⟨v, s₁, -, rfl⟩ := h; exact .inr ⟨rfl, .inl ⟨v, rfl⟩⟩
  | slx c p => cases h; exact .inr ⟨rfl, .inr ⟨p, rfl⟩⟩
  | add | sub | mul | dgt => obtain ⟨v, s₁, -, rfl⟩ := h; exact .inl ⟨rfl, rfl, .inl rfl⟩
  | dst | teq | tgt | tlt | tcp =>
    obtain ⟨x, y, s₁, s₂, -, -, rfl⟩ := h
    exact .inl ⟨rfl, rfl, .inl rfl⟩

theorem exec_runsOn_or_blocked (h : exec i s = .next t) : RunsOn s t i ∨ Blocked t := by
  rcases exec_next h with hc | ⟨p, q, rfl⟩
  · exact completed_runsOn_or_blocked hc
  · exact .inr ⟨rfl, .inr ⟨p, rfl⟩⟩

/-! ## A cycle without effect -/

theorem gatedExec_nop (c : Cond) (s : State) : gatedExec (.nop c) s = .next s := ite_self _

/-- The cycle of `NOP`, whether its gate lets it through or not. -/
theorem step_nop {c : Cond} (h : FetchesInstr s (.nop c)) : step s = .next (atExec s) := by
  rw [step_fetched h, gatedExec_nop]

/-- The cycle of an instruction that the gate rejects (R184). -/
theorem step_skipped (h : FetchesInstr s i) (hg : gate i.cond s = false) : step s = .next (atExec s) := by
  rw [step_fetched h, gatedExec, gate_atExec, hg]
  rfl

/-! ## An operand without data -/

/-- Without data an instruction of one value operand blocks on input, with `pc` back at the fetched slot
(R186). -/
theorem withOperand_retries {a : Operand} {s₁ : State} {p : Pin}
    {k : Int → State → Host.Outcome State Fault Refusal} (h : resolve a s = (.unavailable p, s₁)) :
    withOperand a s k = .next { s₁ with pc := s.ipc, status := .blockedOnInput p, active := false } := by
  rw [withOperand_unavailable h, retry_of_controlKept (resolve_controlKept h)]

/-! ## What the moves, the jump and the suspensions are not -/

section
variable {c : Cond} {x : Operand} {r : Reg} {target : Slot} {p : Pin}
  (hi : i = .nop c ∨ i = .mov c x r ∨ i = .jmp c target ∨ i = .slp c x ∨ i = .slx c p)
include hi

theorem moveControl_not_isTest : ¬ IsTest i := by
  rcases hi with rfl | rfl | rfl | rfl | rfl <;> simp [IsTest]

theorem moveControl_not_writesAcc : ¬ WritesAcc i := by
  rcases hi with rfl | rfl | rfl | rfl | rfl <;> simp [WritesAcc]

/-- A `MOV` among them has the given qualifier and source. -/
theorem moveControl_mov {d : Reg} (h : ∃ c' src, i = .mov c' src d) : i = .mov c x d := by
  obtain ⟨c', src, rfl⟩ := h
  obtain ⟨rfl, rfl, rfl⟩ : c' = c ∧ src = x ∧ d = r := by simpa using hi
  rfl

/-- A `JMP` among them is the given one. -/
theorem moveControl_jmp (h : ∃ c' slot, i = .jmp c' slot) : i = .jmp c target := by
  obtain ⟨c', slot, rfl⟩ := h
  simpa using hi

end

end Sys2Proof.Machine

namespace Sys2Proof.Proofs

open Sys2Proof.Machine Sys2Proof.Safety

/-- Settles O47: no test and no arithmetic is among them, and what does not block runs on. -/
theorem moveControlFrame : Obligations.MoveControlFrame := by
  intro c x r target p i s t hi h
  obtain ⟨hplus, hminus⟩ := (exec_flags h).resolve_right (moveControl_not_isTest hi)
  refine ⟨hplus, hminus, (exec_controlKept h).mem, fun hacc => ?_, fun hdat => ?_, fun hst => ?_,
    fun hinput htime => ?_⟩
  · have hmov := ((exec_acc h).resolve_left hacc).resolve_right (moveControl_not_writesAcc hi)
    exact moveControl_mov hi hmov
  · exact moveControl_mov hi ((exec_dat h).resolve_left hdat)
  · obtain ⟨hst', -, -⟩ | ⟨hactive, -⟩ := exec_runsOn_or_blocked h
    · exact absurd hst' hst
    · exact hactive
  · obtain ⟨-, hactive, hpc⟩ | ⟨-, ⟨d, hd⟩ | ⟨q, hq⟩⟩ := exec_runsOn_or_blocked h
    · refine ⟨hactive, fun hne => moveControl_jmp hi ?_⟩
      obtain ⟨c', hjmp⟩ := hpc.resolve_left hne
      exact ⟨c', _, hjmp⟩
    · exact absurd hd (htime d)
    · exact absurd hq (hinput q)

/-- Settles O15: both cycles only latch the slot and advance the counter. -/
theorem nopActsLikeSkipped : Obligations.NopActsLikeSkipped := by
  intro s₁ s₂ c i h₁ h₂ hg hs
  have hexec : atExec s₂ = { atExec s₁ with mem := s₂.mem } := congrArg atExec hs
  exact ⟨atExec s₁, step_nop h₁, by rw [step_skipped h₂ hg, hexec]⟩

/-- Settles O25: its meaning is the state it is given. -/
theorem nopChangesNothing : Obligations.NopChangesNothing := fun _ _ => rfl

/-- Settles O26, by the source's value and the kinds of destination. -/
theorem movCopiesSourceToDestination : Obligations.MovCopiesSourceToDestination := by
  intro c src dst s s₁
  refine ⟨fun v hv => (withOperand_value hv).trans ?_, fun p hp => withOperand_retries hp⟩
  cases dst <;> rfl

/-- Settles O27: its meaning writes `pc` alone. -/
theorem jmpWritesPc : Obligations.JmpWritesPc := fun _ _ _ => rfl

/-- Settles O28: with a value `SLP` blocks, without one it retries. -/
theorem slpBlocksOnTime : Obligations.SlpBlocksOnTime := fun _ _ _ _ =>
  ⟨fun _ hd => withOperand_value hd, fun _ hp => withOperand_retries hp⟩

/-- Settles O29: its meaning blocks without resolving anything. -/
theorem slxBlocksOnInput : Obligations.SlxBlocksOnInput := fun _ _ _ => rfl

end Sys2Proof.Proofs
end

section
/-! Proofs of the statements of spec/42_arithmetic.md: what an instruction that writes `ACC` does with the
values of its operands, the closed forms of `NOT` and of the digit operations, the frame; then the
statements. -/

namespace Sys2Proof.Machine

variable {s s₁ s₂ t : State} {i : Instr}

/-! ## Writing `ACC` from the values of the operands -/

/-- Resolving an operand does not write `ACC` (R27). -/
theorem resolve_acc {o : Operand} {r : Resolved} (h : resolve o s = (r, s₁)) : s₁.acc = s.acc := by
  rw [resolve_withPins h]
  rfl

/-- `ACC` is combined with the value of the one operand. -/
theorem withOperand_writes_acc {x : Operand} {v : Int} (f : Int → Int → Int)
    (h : resolve x s = (.value v, s₁)) :
    withOperand x s (fun v s₁ => .next { s₁ with acc := f s₁.acc v })
      = .next { s₁ with acc := f s.acc v } := by
  rw [withOperand_value h, resolve_acc h]

/-- `ACC` is combined with the values of the two operands. -/
theorem withOperands_writes_acc {a b : Operand} {x y : Int} (f : Int → Int → Int → Int)
    (ha : resolve a s = (.value x, s₁)) (hb : resolve b s₁ = (.value y, s₂)) :
    withOperands a b s (fun x y s₂ => .next { s₂ with acc := f s₂.acc x y })
      = .next { s₂ with acc := f s.acc x y } := by
  rw [withOperands_value ha hb, resolve_acc hb, resolve_acc ha]

/-! ## Closed forms of the results -/

theorem aluNot_zero : aluNot 0 = 100 := rfl

theorem aluNot_of_ne_zero {a : Int} (h : a ≠ 0) : aluNot a = 0 := if_neg h

theorem digitAt_eq_ite (v i : Int) :
    digitAt v i = if i < 0 then 0 else ((v.natAbs / 10 ^ i.toNat % 10 : Nat) : Int) := by
  split
  next h => exact digitAt_neg h
  next h => exact digitAt_eq (by omega)

theorem clampDigit_eq (d : Int) : clampDigit d = max 0 (min 9 d) := by
  unfold clampDigit
  omega

/-- The digit is taken out only at the three places of a datum (R109). -/
theorem replaceDigit_eq (m i d : Int) :
    replaceDigit m i d
      = m - (if i ≤ 2 then digitAt m i * placeValue i else 0) + d * placeValue i := by
  unfold replaceDigit
  split
  · rfl
  · rw [Int.sub_zero]

/-- `set_digit_at` at an index that is not negative, as one clamped expression (R109). -/
theorem setDigitAt_eq_clamp {v i : Int} (d : Int) (h : 0 ≤ i) :
    setDigitAt v i d
      = max (-999) (min 999
          (signOf v
            * ((v.natAbs : Int) - (if i ≤ 2 then digitAt v i * placeValue i else 0)
              + max 0 (min 9 d) * placeValue i))) := by
  rw [setDigitAt_nonneg h, sat_eq_clamp, replaceDigit_eq, digitAt_natAbs, clampDigit_eq]

/-! ## The frame -/

/-- An instruction that writes `ACC` writes nothing else but the pin port (R106). -/
theorem completed_writesAcc_frame (hi : WritesAcc i) (h : Completed s t i) :
    t = { s with acc := t.acc, pins := t.pins } := by
  rcases hi with ⟨c, x, hi⟩ | ⟨c, rfl⟩ | ⟨c, x, y, rfl⟩
  · rcases hi with rfl | rfl | rfl | rfl <;> (obtain ⟨v, s₁, -, rfl⟩ := h; rfl)
  · cases h; rfl
  · obtain ⟨j, d, s₁, s₂, -, -, rfl⟩ := h; rfl

/-- The six arithmetic and digit instructions are the ones that write `ACC`. -/
theorem writesAcc_of_arithmetic {c : Cond} {x y : Operand}
    (hi : i = .add c x ∨ i = .sub c x ∨ i = .mul c x ∨ i = .not c ∨ i = .dgt c x ∨ i = .dst c x y) :
    WritesAcc i := by
  rcases hi with hi | hi | hi | hi | hi | hi
  · exact .inl ⟨c, x, .inl hi⟩
  · exact .inl ⟨c, x, .inr (.inl hi)⟩
  · exact .inl ⟨c, x, .inr (.inr (.inl hi))⟩
  · exact .inr (.inl ⟨c, hi⟩)
  · exact .inl ⟨c, x, .inr (.inr (.inr hi))⟩
  · exact .inr (.inr ⟨c, x, y, hi⟩)

end Sys2Proof.Machine

namespace Sys2Proof.Proofs

open Sys2Proof.Machine

/-- Settles O30: each writes the saturated exact result of `ACC` and the operand's value. -/
theorem addSubMulSaturateIntoAcc : Obligations.AddSubMulSaturateIntoAcc := by
  intro c x s s₁
  refine ⟨fun v hv => ?_, fun p hp => ?_⟩
  · simp only [← sat_eq_clamp]
    exact ⟨withOperand_writes_acc aluAdd hv, withOperand_writes_acc aluSub hv,
      withOperand_writes_acc aluMul hv⟩
  · exact ⟨withOperand_retries hp, withOperand_retries hp, withOperand_retries hp⟩

/-- Settles O31. -/
theorem notIsHundredOrZero : Obligations.NotIsHundredOrZero := by
  intro c s
  refine ⟨fun h => ?_, fun h => ?_⟩ <;> rw [exec, execNot]
  · rw [h, aluNot_zero]
  · rw [aluNot_of_ne_zero h]

/-- Settles O32, by the closed form of a digit. -/
theorem dgtExtractsDigit : Obligations.DgtExtractsDigit := by
  intro c index s s₁
  refine ⟨fun i hi => ?_, fun p hp => withOperand_retries hp⟩
  rw [← digitAt_eq_ite]
  exact withOperand_writes_acc digitAt hi

/-- Settles O33, by the closed form of `set_digit_at` for each sign of the index. -/
theorem dstReplacesDigit : Obligations.DstReplacesDigit := by
  intro c index value s s₁ s₂ i d hindex hvalue
  have hexec : exec (.dst c index value) s = .next { s₂ with acc := setDigitAt s.acc i d } :=
    withOperands_writes_acc setDigitAt hindex hvalue
  refine ⟨fun hneg => ?_, fun hpos old place new hplace hold hnew => ?_⟩
  · rw [hexec, setDigitAt_neg hneg, ← resolve_acc hindex, ← resolve_acc hvalue]
  · rw [hexec, setDigitAt_eq_clamp d hpos, signOf, digitAt_eq hpos, placeValue_eq, hplace, hold, hnew]

/-- Settles O45: an instruction that writes `ACC` completes within its frame or retries. -/
theorem arithmeticFrame : Obligations.ArithmeticFrame := by
  intro c x y i s t hi h
  rcases exec_next h with hdone | ⟨p, q, rfl⟩
  · exact .inl (completed_writesAcc_frame (writesAcc_of_arithmetic hi) hdone)
  · exact .inr ⟨p, rfl⟩

end Sys2Proof.Proofs
end

section
/-! Proofs of the statements of spec/43_test.md: the frame of a completed test; then the statements. -/

namespace Sys2Proof.Machine

variable {s t : State} {i : Instr}

/-- A completed test writes both flags and nothing else but the pin port (R165). -/
theorem completed_isTest_frame (hi : IsTest i) (h : Completed s t i) :
    t = { s with plusAllowed := t.plusAllowed, minusAllowed := t.minusAllowed, pins := t.pins } := by
  obtain ⟨c, a, b, hi⟩ := hi
  rcases hi with rfl | rfl | rfl | rfl <;> (obtain ⟨x, y, s₁, s₂, -, -, rfl⟩ := h; rfl)

end Sys2Proof.Machine

namespace Sys2Proof.Proofs

open Sys2Proof.Machine

/-- Settles O46: a test completes within its frame or retries. -/
theorem testFrame : Obligations.TestFrame := by
  intro c a b i s t hi h
  rcases exec_next h with hdone | ⟨p, q, rfl⟩
  · exact .inl (completed_isTest_frame ⟨c, a, b, hi⟩ hdone)
  · exact .inr ⟨p, rfl⟩

/-- Settles O34: with both values resolved, each test goes on to write its row of the table. -/
theorem testsWriteFlagsByTable : Obligations.TestsWriteFlagsByTable := by
  intro c a b s s₁ s₂ x y ha hb
  exact ⟨withOperands_value ha hb, withOperands_value ha hb, withOperands_value ha hb,
    withOperands_value ha hb⟩

end Sys2Proof.Proofs
end

section
/-! Proofs of the statements of spec/44_fetch_execute.md: the gate and the wraparound, a turn of the core and
the cycle it makes, how an execution ends, and the direct execution as the same instruction run from another
control state; then the statements. -/

namespace Sys2Proof.Machine

open Sys2Proof.Safety

variable {s t : State} {i : Instr}

/-! ## The gate and the wraparound -/

/-- The gate passes (R184). -/
theorem gate_eq_true_iff {c : Cond} :
    gate c s = true ↔
      c = .regular ∨ (c = .plus ∧ s.plusAllowed = true) ∨ (c = .minus ∧ s.minusAllowed = true) := by
  cases c <;> simp [gate]

/-- The gate skips (R184). -/
theorem gate_eq_false_iff {c : Cond} :
    gate c s = false ↔ (c = .plus ∧ s.plusAllowed = false) ∨ (c = .minus ∧ s.minusAllowed = false) := by
  cases c <;> simp [gate]

theorem nextPc_one (pc : Slot) : nextPc pc 1 = 0 := by
  rw [nextPc, show (1 : ProgLen).toNat = 1 from rfl, Nat.mod_one]
  rfl

/-- The wraparound by its two cases: the next slot, or slot 0 after the last one (R185). -/
theorem nextPc_toNat_eq_ite {pc : Slot} {n : ProgLen} (hp : pc.toNat < n.toNat) (hn : n.toNat ≤ 4096) :
    (nextPc pc n).toNat = if pc.toNat + 1 < n.toNat then pc.toNat + 1 else 0 := by
  rw [nextPc_toNat hp hn]
  split
  next hlt => exact Nat.mod_eq_of_lt hlt
  next hge =>
    have hlast : pc.toNat + 1 = n.toNat := by omega
    rw [hlast, Nat.mod_self]

/-! ## A turn of the core -/

/-- A stopped core only takes the host's turn (R181, R205). -/
theorem step_stopped (hc : CoreActs s) (hr : running s = false) : step s = .next (afterTurn s) := by
  have hr : running (afterTurn s) = false := hr
  rw [step_coreActs hc, coreTurn, hr]
  rfl

/-- A running core makes one cycle (R181). -/
theorem step_running (hc : CoreActs s) (hr : running s = true) : step s = cycle (afterTurn s) := by
  have hr : running (afterTurn s) = true := hr
  rw [step_coreActs hc, coreTurn, if_pos hr]

theorem not_running (h : s.active = false ∨ s.faultCode ≠ none) : running s = false := by
  rw [Bool.eq_false_iff, ne_eq, running_iff]
  rintro ⟨ha, hf⟩
  exact h.elim (Bool.eq_false_iff.1 · ha) (· hf)

theorem cycle_emptyProgram (hn : s.progLen = 0) : cycle s = .next (raiseFault .emptyProgram s) := if_pos hn

theorem cycle_pcOutOfRange (hn : s.progLen ≠ 0) (hp : s.progLen.toNat ≤ s.pc.toNat) :
    cycle s = .next (raiseFault .pcOutOfRange s) := by
  rw [cycle, if_neg hn, if_pos hp]

/-- A word that does not decode faults in the cycle that fetched it, before the gate (R78, R182). -/
theorem cycle_illegal {e : Reject} (hp : s.pc.toNat < s.progLen.toNat) (hm : s.pc.toNat < s.mem.slots)
    (hd : decode (s.mem.word s.pc.toNat) s.progLen = .error e) :
    cycle s = .next (raiseFault (faultOf e) (latchFetch s)) := by
  have hn : s.progLen ≠ 0 := by
    intro h
    rw [h] at hp
    exact Nat.not_lt_zero _ hp
  simp only [cycle, if_neg hn, if_neg hp.not_ge, fetch, Memory.read_of_lt hm, hd]

/-- The fault of an illegal word (R200). -/
theorem faultOf_eq (e : Reject) :
    faultOf e = if e = .jumpTarget then .jmpTarget else .illegalInstruction := by
  cases e <;> rfl

/-- What a running core with the counter in range fetches (R182). -/
theorem fetchesInstr_of_decode (hc : CoreActs s) (hr : running s = true)
    (hp : s.pc.toNat < s.progLen.toNat) (hm : s.pc.toNat < s.mem.slots)
    (hd : decode (s.mem.word s.pc.toNat) s.progLen = .ok i) : FetchesInstr s i :=
  ⟨_, ⟨hc, hr, hp, Memory.read_of_lt hm⟩, hd⟩

/-- The cycle of an instruction that the gate lets through (R182). -/
theorem step_gatePassed (h : FetchesInstr s i) (hg : gate i.cond s = true) :
    step s = exec i (atExec s) := by
  rw [step_fetched h, gatedExec, gate_atExec, if_pos hg]

/-- How a cycle of the running core ends: a fault at the counter, or a skipped or executed instruction. -/
inductive CycleEffect (s : State) : State → Prop where
  | fault (c : FaultCode) {u : State} (hpc : u.pc = s.pc) : CycleEffect s (raiseFault c u)
  | skip {i : Instr} (hi : FetchesInstr s i) (hg : gate i.cond s = false) : CycleEffect s (atExec s)
  | execute {i : Instr} {t : State} (hi : FetchesInstr s i) (hg : gate i.cond s = true)
      (he : exec i (atExec s) = .next t) : CycleEffect s t

/-- Of the effects of a step, the running core's own turn has those of a cycle. -/
theorem step_cycleEffect (hc : CoreActs s) (hr : running s = true) (h : step s = .next t) :
    CycleEffect s t := by
  cases coreTurn_effect hc h with
  | idle hstop => exact absurd hr (Bool.eq_false_iff.1 (hstop hc))
  | emptyProgram | pcOutOfRange | decodeFault => exact .fault _ rfl
  | skip hi hg => exact .skip hi hg
  | execute hi hg he => exact .execute hi hg he
  | reset hh | loadWord hh | setProgLen hh | run hh | directFault hh | direct hh | readReg hh =>
    exact absurd hc (not_coreActs hh nofun)

/-! ## How an execution ends -/

/-- A completed instruction moves the counter only as a `JMP` (R122). -/
theorem completed_pc (h : Completed s t i) : t.pc = s.pc ∨ ∃ c, i = .jmp c t.pc := by
  cases i with
  | nop | slx | not => cases h; exact .inl rfl
  | jmp c target => cases h; exact .inr ⟨c, rfl⟩
  | mov c src d => obtain ⟨v, s₁, -, rfl⟩ := h; exact .inl (by cases d <;> rfl)
  | slp | add | sub | mul | dgt => obtain ⟨v, s₁, -, rfl⟩ := h; exact .inl rfl
  | dst | teq | tgt | tlt | tcp => obtain ⟨x, y, s₁, s₂, -, -, rfl⟩ := h; exact .inl rfl

/-- An executed instruction leaves the counter, puts it back to its own slot and ends the run, or jumps
(R122, R186). -/
theorem exec_pc (h : exec i s = .next t) :
    t.pc = s.pc ∨ (t.pc = s.ipc ∧ t.active = false) ∨ ∃ c, i = .jmp c t.pc := by
  rcases exec_next h with hc | ⟨p, q, rfl⟩
  · exact (completed_pc hc).imp_right .inr
  · exact .inr (.inl ⟨rfl, rfl⟩)

/-- Only `SLX` and a retry leave an unblocked core blocked on input (R124, R186). -/
theorem exec_blockedOnInput {p : Pin} (hs : s.status = .notBlocked) (h : exec i s = .next t)
    (ht : t.status = .blockedOnInput p) : (∃ c q, i = .slx c q) ∨ ∃ q, t = retry p (withPins q s) := by
  have hne : s.status ≠ .blockedOnInput p := by rw [hs]; nofun
  cases exec_writes h with
  | counter | acc | flags => exact absurd ht hne
  | register c d => exact absurd ht (by cases d <;> exact hne)
  | time => cases ht
  | input c q => exact .inl ⟨c, q, rfl⟩
  | retried _ q port => cases ht; exact .inr ⟨port, rfl⟩

/-- No instruction starts a run (R183). -/
theorem exec_stays_stopped (ha : s.active = false) (h : exec i s = .next t) : t.active = false := by
  rcases exec_runsOn_or_blocked h with ⟨-, hactive, -⟩ | ⟨hactive, -⟩
  · rw [hactive, ha]
  · exact hactive

/-! ## An instruction's results do not depend on the control state -/

/-- `s` with the results that an instruction left in `u`: the registers, the flags, the pin port and the
status. -/
def withResults (u s : State) : State :=
  { s with acc := u.acc, dat := u.dat, plusAllowed := u.plusAllowed, minusAllowed := u.minusAllowed,
           pins := u.pins, status := u.status }

/-- An instruction run from a stopped core writes its results and the counter. -/
theorem exec_frame (ha : s.active = false) (h : exec i s = .next t) :
    t = { withResults t s with pc := t.pc } := by
  have hactive : t.active = s.active := by rw [exec_stays_stopped ha h, ha]
  obtain ⟨hmem, hlen, hcode, hfpc, hipc, hhost, hreply, -, -⟩ := exec_controlKept h
  cases t
  cases hactive; cases hmem; cases hlen; cases hcode; cases hfpc; cases hipc; cases hhost; cases hreply
  rfl

/-- An operand resolves alike whatever the control state is. -/
theorem resolve_withResults {o : Operand} {r : Resolved} (h : resolve o s = (r, t)) (b : State) :
    resolve o (withResults s b) = (r, withResults t b) := by
  rcases o with v | (_ | _ | _ | p) <;> cases h <;> rfl

theorem discardRead_withResults (o : Operand) (s₀ s b : State) :
    discardRead o (withResults s₀ b) (withResults s b) = withResults (discardRead o s₀ s) b := by
  rcases o with v | (_ | _ | _ | p) <;> rfl

/-- Both outcomes are next states, and the second has the results of the first. -/
def SameResults (x y : Host.Outcome State Fault Refusal) : Prop :=
  ∃ t u, x = .next t ∧ y = .next u ∧ withResults t u = u

theorem retry_sameResults (p : Pin) (s b : State) :
    SameResults (.next (retry p s)) (.next (retry p (withResults s b))) := ⟨_, _, rfl, rfl, rfl⟩

theorem writeReg_sameResults (d : Reg) (v : Int) (s b : State) :
    SameResults (.next (writeReg d v s)) (.next (writeReg d v (withResults s b))) :=
  ⟨_, _, rfl, rfl, by cases d <;> rfl⟩

theorem withOperand_sameResults {k : Int → State → Host.Outcome State Fault Refusal} {b : State}
    (hk : ∀ v s, SameResults (k v s) (k v (withResults s b))) (a : Operand) (s : State) :
    SameResults (withOperand a s k) (withOperand a (withResults s b) k) := by
  rcases withOperand_cases a s with ⟨v, s₁, hr, hw⟩ | ⟨p, s₁, hr, hw⟩ <;> rw [hw]
  · rw [withOperand_value (resolve_withResults hr b)]
    exact hk v s₁
  · rw [withOperand_unavailable (resolve_withResults hr b)]
    exact retry_sameResults p s₁ b

theorem withOperands_sameResults {k : Int → Int → State → Host.Outcome State Fault Refusal} {b : State}
    (hk : ∀ x y s, SameResults (k x y s) (k x y (withResults s b))) (a a' : Operand) (s : State) :
    SameResults (withOperands a a' s k) (withOperands a a' (withResults s b) k) := by
  rcases withOperands_cases a a' s with ⟨x, y, s₁, s₂, ha, hb, hw⟩ | ⟨p, s₁, ha, hw⟩ |
    ⟨x, p, s₁, s₂, ha, hb, hw⟩ <;> rw [hw]
  · rw [withOperands_value (resolve_withResults ha b) (resolve_withResults hb b)]
    exact hk x y s₂
  · rw [withOperands_unavailable_left a' (resolve_withResults ha b)]
    exact retry_sameResults p s₁ b
  · rw [withOperands_unavailable_right (resolve_withResults ha b) (resolve_withResults hb b),
      discardRead_withResults]
    exact retry_sameResults p _ b

/-- Every instruction takes a next state, with the same results from every control state. -/
theorem exec_sameResults (i : Instr) (s b : State) :
    SameResults (exec i s) (exec i (withResults s b)) := by
  cases i with
  | nop | jmp | slx | not => exact ⟨_, _, rfl, rfl, rfl⟩
  | mov c src d => exact withOperand_sameResults (fun v s => writeReg_sameResults d v s b) src s
  | slp c x | add c x | sub c x | mul c x | dgt c x =>
    exact withOperand_sameResults (fun _ _ => ⟨_, _, rfl, rfl, rfl⟩) x s
  | dst c x y | teq c x y | tgt c x y | tlt c x y | tcp c x y =>
    exact withOperands_sameResults (fun _ _ _ => ⟨_, _, rfl, rfl, rfl⟩) x y s

/-! ## `Run` and `ExecDirect` by their guard -/

/-- `Run` and `ExecDirect` are accepted from a stopped core without a fault (R180, R188). -/
theorem not_ignored (ha : s.active = false) (hf : s.faultCode = none) :
    ¬ (s.active = true ∨ s.faultCode ≠ none) := by
  rintro (ha' | hf')
  · exact Bool.eq_false_iff.1 ha ha'
  · exact hf' hf

theorem hostExecDirect_ignored (w : Word) (h : s.active = true ∨ s.faultCode ≠ none) :
    hostExecDirect w s = .next s := by
  rcases hostExecDirect_cases w s with ⟨-, hs⟩ | ⟨e, ha, hf, -⟩ | ⟨j, ha, hf, -⟩
  · exact hs
  · exact absurd h (not_ignored ha hf)
  · exact absurd h (not_ignored ha hf)

theorem hostExecDirect_illegal {w : Word} {e : Reject} (ha : s.active = false) (hf : s.faultCode = none)
    (hd : decode w s.progLen = .error e) : hostExecDirect w s = .next (raiseFault (faultOf e) s) := by
  simp [hostExecDirect, ha, hf, hd]

/-- The fetch latch lent for the execution is put back after it (R188). -/
theorem hostExecDirect_legal {w : Word} (ha : s.active = false) (hf : s.faultCode = none)
    (hd : decode w s.progLen = .ok i) (he : exec i { s with status := .notBlocked, ipc := s.pc } = .next t) :
    hostExecDirect w s = .next { t with ipc := s.ipc } := by
  have hexec : hostExecDirect w s = execDirect i s := by simp [hostExecDirect, ha, hf, hd]
  rw [hexec, execDirect, he]

/-- A direct execution leaves a stopped core the results that the instruction leaves from `NotBlocked`
(R188). -/
theorem exec_directState (ha : s.active = false) (i : Instr) :
    ∃ t u, exec i (directState s) = .next t ∧ exec i { s with status := .notBlocked } = .next u ∧
      { t with ipc := s.ipc } = { withResults u (afterTurn s) with pc := t.pc } := by
  obtain ⟨u, t, hu, ht, hres⟩ := exec_sameResults i { s with status := .notBlocked } (directState s)
  change exec i (directState s) = .next t at ht
  have hframe := exec_frame (s := directState s) ha ht
  refine ⟨t, u, ht, hu, ?_⟩
  calc { t with ipc := s.ipc }
    _ = { withResults u t with ipc := s.ipc } := by rw [hres]
    _ = { withResults u (afterTurn s) with pc := t.pc } :=
      congrArg (fun x => { withResults u x with ipc := s.ipc }) hframe

/-- A direct execution moves the counter only as a `JMP`: a retry puts it back where it is (R188). -/
theorem directState_pc (h : exec i (directState s) = .next t) : t.pc = s.pc ∨ ∃ c, i = .jmp c t.pc := by
  rcases exec_pc h with hpc | ⟨hpc, -⟩ | hjmp
  · exact .inl hpc
  · exact .inl hpc
  · exact .inr hjmp

/-! ## The word placed at the counter -/

/-- The loaded core fetches the word it was given (R36, R182). -/
theorem withFetchWord_fetchesInstr {w : Nat} (hm : s.mem.slots ≤ 4096) (hp : s.pc.toNat < s.mem.slots)
    (hd : decode (BitVec.ofNat 32 w) (BitVec.ofNat 13 s.mem.slots) = .ok i) :
    FetchesInstr (s.withFetchWord 32 w) i := by
  have hw : BitVec.ofNat 32 (w % 2 ^ 32) = BitVec.ofNat 32 w := BitVec.eq_of_toNat_eq (by simp)
  refine ⟨BitVec.ofNat 32 w, ⟨.inl rfl, rfl, ?_, ?_⟩, hd⟩
  · exact hp.trans_eq (progLen_toNat hm).symm
  · rw [State.withFetchWord, hw]
    exact Memory.read_write_same _ _ hp

end Sys2Proof.Machine

namespace Sys2Proof.Proofs

open Sys2Proof.Machine Sys2Proof.Safety

/-- Settles O12: the latch and the status lent for the execution change none of its results. -/
theorem execDirectRunsOneInstruction : Obligations.ExecDirectRunsOneInstruction := by
  intro s w rest hh
  have hturn : afterTurn s = { s with host := rest } := by rw [afterTurn, hh, List.tail_cons]
  rw [step_command hh, hostTurn, ← hturn]
  refine ⟨hostExecDirect_ignored w (s := afterTurn s), fun ha hf => ⟨fun e hd => ?_, fun i hd => ?_⟩⟩
  · rw [hostExecDirect_illegal (s := afterTurn s) ha hf hd, faultOf_eq, hturn]
    rfl
  · obtain ⟨t, u, ht, hu, hres⟩ := exec_directState ha i
    rw [hturn] at hres
    refine ⟨_, u, hostExecDirect_legal (s := afterTurn s) ha hf hd ht, hu, hres, fun c target hi => ?_,
      fun hi => ?_⟩
    · cases hi
      cases ht
      rfl
    · exact (directState_pc ht).resolve_right fun ⟨c, hjmp⟩ => hi c _ hjmp

/-- Settles O21: a fault and a retry leave the counter at the slot, a jump sets it, all else advances it. -/
theorem pcMovesByWrapJumpOrNotAtAll : Obligations.PcMovesByWrapJumpOrNotAtAll := by
  intro s t hc ha hf h
  cases step_cycleEffect hc (running_iff.2 ⟨ha, hf⟩) h with
  | fault c hpc => exact .inr (.inl ⟨hpc, rfl⟩)
  | skip => exact .inl rfl
  | execute hi hg he =>
    obtain hpc | hretry | ⟨c, rfl⟩ := exec_pc he
    · exact .inl hpc
    · exact .inr (.inl hretry)
    · exact .inr (.inr ⟨c, t.pc, hi, hg, rfl⟩)

/-- Settles O23: of the ends of a cycle, only a fault and a blocking instruction drop the run latch. -/
theorem runEndsOnlyByBlockOrFault : Obligations.RunEndsOnlyByBlockOrFault := by
  intro s t hc ha h ht
  have hne : s.active ≠ false := Bool.ne_false_iff.2 ha
  cases hr : running s with
  | false =>
    rw [step_stopped hc hr] at h
    cases h
    exact absurd ht hne
  | true =>
    cases step_cycleEffect hc hr h with
    | fault => exact .inr ⟨rfl, nofun⟩
    | skip => exact absurd ht hne
    | execute hi hg he =>
      obtain ⟨-, hactive, -⟩ | ⟨-, hblocked⟩ := exec_runsOn_or_blocked he
      · exact absurd (hactive.symm.trans ht) hne
      · have hcode : t.faultCode = none := (exec_controlKept he).faultCode.trans (running_iff.1 hr).2
        exact .inl ⟨_, hi, hg, hcode, hblocked⟩

/-- Settles O41: such a cycle is a retry, which writes `pc`, `status` and `active` beside the pin port. -/
theorem retryRefetchesInstruction : Obligations.RetryRefetchesInstruction := by
  intro s t i p hi hg hslx hs h ht
  rw [step_gatePassed hi hg] at h
  obtain ⟨c, q, hiq⟩ | ⟨q, rfl⟩ := exec_blockedOnInput (s := atExec s) hs h ht
  · exact absurd hiq (hslx c q)
  · exact ⟨rfl, rfl, rfl, rfl, rfl, rfl, rfl, rfl, rfl⟩

/-- Settles O6, by the guard of `Run`. -/
theorem runStartsStoppedCore : Obligations.RunStartsStoppedCore := by
  intro s rest hh
  rw [step_host hh, hostTurn]
  rcases hostRun_cases { s with host := rest } with ⟨ha, hf, hs⟩ | ⟨hignored, hs⟩ <;> rw [hs]
  · exact ⟨fun _ _ => rfl, fun h => absurd h (not_ignored ha hf)⟩
  · exact ⟨fun ha hf => absurd hignored (not_ignored ha hf), fun _ => rfl⟩

/-- Settles O13: the fetched instruction passes the gate. -/
theorem stepRunsDecodedInstruction : Obligations.StepRunsDecodedInstruction := by
  intro s w i hc ha hf hp hm hw hd hg
  rw [← hw] at hd
  have hi : FetchesInstr s i := fetchesInstr_of_decode hc (running_iff.2 ⟨ha, hf⟩) hp hm hd
  exact step_gatePassed hi (gate_eq_true_iff.2 hg)

/-- Settles O14: what the gate rejects is skipped. -/
theorem gateSkipsInstruction : Obligations.GateSkipsInstruction :=
  ⟨fun _ => ⟨rfl, rfl, rfl⟩, fun _ _ hi hg => step_skipped hi (gate_eq_false_iff.2 hg)⟩

/-- Settles O16, fault by fault of the cycle. -/
theorem cycleFaultsInPriorityOrder : Obligations.CycleFaultsInPriorityOrder := by
  intro s hc ha hf
  rw [step_running hc (running_iff.2 ⟨ha, hf⟩)]
  refine ⟨cycle_emptyProgram (s := afterTurn s), cycle_pcOutOfRange (s := afterTurn s),
    fun hp hm e hd => ?_⟩
  rw [cycle_illegal (s := afterTurn s) hp hm hd, faultOf_eq]
  rfl

/-- Settles O18. -/
theorem stoppedCoreTakesNoStep : Obligations.StoppedCoreTakesNoStep := fun _ hc h =>
  step_stopped hc (not_running h)

/-- Settles O20, by the two cases of the wraparound. -/
theorem nextPcWrapsAtProgLen : Obligations.NextPcWrapsAtProgLen := by
  intro pc n hp hn
  refine ⟨nextPc_toNat_eq_ite hp hn, fun h => ?_⟩
  rw [h, nextPc_one]

/-- Settles O24: the placed word is fetched, and loading it leaves the flags of the gate. -/
theorem withFetchWordRunsInstruction : Obligations.WithFetchWordRunsInstruction := by
  intro s w i hm hp hd hg
  have hg' : gate i.cond (s.withFetchWord 32 w) = true := gate_eq_true_iff.2 (gate_eq_true_iff.1 hg)
  exact step_gatePassed (withFetchWord_fetchesInstr hm hp hd) hg'

end Sys2Proof.Proofs
end

section
/-! Proofs of the statements of spec/60_exceptions.md: the decoder's one check of the jump target, where a
step has a next state, what a faulted core's steps leave, and the counter's bound; then the statements. -/

namespace Sys2Proof

/-! ## The target defect -/

/-- The answer is not the target defect, which only the whole word's last check gives (R80, R203). -/
def TargetUnchecked {α : Type} (x : Except Reject α) : Prop := x ≠ .error .jumpTarget

section

variable {α β : Type} {x : Except Reject α} {f : α → Except Reject β}

theorem targetUnchecked_ok (a : α) : TargetUnchecked (.ok a) := nofun

theorem targetUnchecked_bind (hx : TargetUnchecked x) (hf : ∀ a, TargetUnchecked (f a)) :
    TargetUnchecked (x >>= f) := by
  cases x with
  | error e => exact fun h => hx (congrArg Except.error (Except.error.inj h))
  | ok a => exact hf a

theorem targetUnchecked_map (g : α → β) (hx : TargetUnchecked x) : TargetUnchecked (x.map g) := by
  cases x with
  | error e => exact fun h => hx (congrArg Except.error (Except.error.inj h))
  | ok a => exact targetUnchecked_ok (g a)

theorem targetUnchecked_ite {p : Prop} [Decidable p] {y : Except Reject α} (hx : TargetUnchecked x)
    (hy : TargetUnchecked y) : TargetUnchecked (if p then x else y) := by
  split
  · exact hx
  · exact hy

end

/-! The fields of a word. -/

theorem decodeCond_targetUnchecked (c : BitVec 2) : TargetUnchecked (decodeCond c) := by
  unfold decodeCond
  split <;> nofun

theorem decodeRegister_targetUnchecked (o : Field) : TargetUnchecked (decodeRegister o) := by
  refine targetUnchecked_ite ?_ nofun
  unfold decodeRegisterCode
  split <;> nofun

theorem decodeValue_targetUnchecked (o : Field) : TargetUnchecked (decodeValue o) :=
  targetUnchecked_ite (targetUnchecked_map _ (decodeRegister_targetUnchecked o))
    (targetUnchecked_map _ (targetUnchecked_ite (targetUnchecked_ok _) nofun))

theorem decodeDestination_targetUnchecked (o : Field) : TargetUnchecked (decodeDestination o) :=
  targetUnchecked_ite (decodeRegister_targetUnchecked o) nofun

theorem decodePin_targetUnchecked (o : Field) : TargetUnchecked (decodePin o) := by
  refine targetUnchecked_ite ?_ nofun
  split
  next r _ => cases r <;> nofun
  next => nofun

theorem decodeUnused_targetUnchecked (o : Field) : TargetUnchecked (decodeUnused o) :=
  targetUnchecked_ite (targetUnchecked_ok _) nofun

/-! The operand shapes: the last field's decoding is mapped into the instruction. -/

section

variable (a b : Field)

theorem decodeV_targetUnchecked (mk : Operand → Instr) : TargetUnchecked (decodeV mk a b) :=
  targetUnchecked_bind (decodeValue_targetUnchecked a) fun _ =>
    targetUnchecked_map _ (decodeUnused_targetUnchecked b)

theorem decodeVV_targetUnchecked (mk : Operand → Operand → Instr) : TargetUnchecked (decodeVV mk a b) :=
  targetUnchecked_bind (decodeValue_targetUnchecked a) fun _ =>
    targetUnchecked_map _ (decodeValue_targetUnchecked b)

theorem decodeZZ_targetUnchecked (i : Instr) : TargetUnchecked (decodeZZ i a b) :=
  targetUnchecked_bind (decodeUnused_targetUnchecked a) fun _ =>
    targetUnchecked_map _ (decodeUnused_targetUnchecked b)

theorem decodeVD_targetUnchecked (mk : Operand → Reg → Instr) : TargetUnchecked (decodeVD mk a b) :=
  targetUnchecked_bind (decodeValue_targetUnchecked a) fun _ =>
    targetUnchecked_map _ (decodeDestination_targetUnchecked b)

theorem decodeT_targetUnchecked (mk : Slot → Instr) : TargetUnchecked (decodeT mk a b) :=
  targetUnchecked_map _ (decodeUnused_targetUnchecked b)

theorem decodeP_targetUnchecked (mk : Pin → Instr) : TargetUnchecked (decodeP mk a b) :=
  targetUnchecked_bind (decodePin_targetUnchecked a) fun _ =>
    targetUnchecked_map _ (decodeUnused_targetUnchecked b)

theorem decodeOp_targetUnchecked (op : BitVec 4) (c : Cond) : TargetUnchecked (decodeOp op c a b) := by
  unfold decodeOp
  split
  · exact decodeZZ_targetUnchecked a b _
  · exact decodeVD_targetUnchecked a b _
  · exact decodeT_targetUnchecked a b _
  · exact decodeV_targetUnchecked a b _
  · exact decodeP_targetUnchecked a b _
  · exact decodeV_targetUnchecked a b _
  · exact decodeV_targetUnchecked a b _
  · exact decodeV_targetUnchecked a b _
  · exact decodeZZ_targetUnchecked a b _
  · exact decodeV_targetUnchecked a b _
  · exact decodeVV_targetUnchecked a b _
  · exact decodeVV_targetUnchecked a b _
  · exact decodeVV_targetUnchecked a b _
  · exact decodeVV_targetUnchecked a b _
  · exact decodeVV_targetUnchecked a b _
  · nofun

end

/-! The whole word. -/

theorem decodeFields_targetUnchecked (w : Word) : TargetUnchecked (decodeFields w) :=
  targetUnchecked_ite nofun <| targetUnchecked_ite nofun <|
    targetUnchecked_bind (decodeCond_targetUnchecked _) fun c => decodeOp_targetUnchecked _ _ _ c

/-- The target defect: the fields decode, and the word is a `JMP` whose field A is not below PROG_LEN
(R80, R203). -/
theorem decode_eq_jumpTarget_iff (w : Word) (n : ProgLen) :
    decode w n = .error .jumpTarget ↔
      ¬ Rejects (decodeFields w) ∧ (opField w).toNat = 2 ∧ n.toNat ≤ (aField w).toNat := by
  cases h : decodeFields w with
  | error e =>
    have he : e ≠ .jumpTarget := fun he => decodeFields_targetUnchecked w (he ▸ h)
    simp [decode, h, he]
  | ok i =>
    have htarget := targetOk_eq_false_iff i n
    rw [encode_of_decodeFields h] at htarget
    rw [decode_of_decodeFields h, ← htarget]
    cases i.targetOk n <;> simp

/-- The operands of a `JMP` are bad only by a field B that is not zero (R76). -/
theorem badOperands_jmp (a b : Field) : BadOperands 2 a b ↔ b ≠ 0 := by
  simp [BadOperands]

end Sys2Proof

namespace Sys2Proof.Machine

open Sys2Proof.Safety

variable {s t : State} {i : Instr}

/-! ## Where a step has a next state -/

/-- An instruction with its retry always has a next state (R110, R200). -/
theorem exec_total (i : Instr) (s : State) : ∃ t, exec i s = .next t := by
  obtain ⟨t, -, ht, -⟩ := exec_sameResults i s s
  exact ⟨t, ht⟩

theorem gatedExec_total (i : Instr) (s : State) : ∃ t, gatedExec i s = .next t := by
  unfold gatedExec
  split
  · exact exec_total i s
  · exact ⟨s, rfl⟩

theorem execDirect_total (i : Instr) (s : State) : ∃ t, execDirect i s = .next t := by
  obtain ⟨u, hu⟩ := exec_total i { s with status := .notBlocked, ipc := s.pc }
  exact ⟨{ u with ipc := s.ipc }, by rw [execDirect, hu]⟩

theorem hostExecDirect_total (w : Word) (s : State) : ∃ t, hostExecDirect w s = .next t := by
  rcases hostExecDirect_cases w s with ⟨-, hs⟩ | ⟨e, -, -, -, hs⟩ | ⟨i, -, -, -, hs⟩ <;> rw [hs]
  · exact ⟨_, rfl⟩
  · exact ⟨_, rfl⟩
  · exact execDirect_total i s

/-- A cycle fetches only slots that exist where the program lies in memory (R34, R182). -/
theorem cycle_total (h : s.progLen.toNat ≤ s.mem.slots) : ∃ t, cycle s = .next t := by
  rcases cycle_cases s with ⟨-, hs⟩ | ⟨-, -, hs⟩ | ⟨hp, hm, -⟩ | ⟨w, e, -, -, -, hs⟩ |
    ⟨w, i, -, -, -, hs⟩
  · exact ⟨_, hs⟩
  · exact ⟨_, hs⟩
  · rw [Memory.read_of_lt (hp.trans_le h)] at hm
    cases hm
  · exact ⟨_, hs⟩
  · rw [hs]
    exact gatedExec_total i _

theorem step_coreActs_total (hc : CoreActs s) (h : s.progLen.toNat ≤ s.mem.slots) :
    ∃ t, step s = .next t := by
  cases hr : running s with
  | false => exact ⟨_, step_stopped hc hr⟩
  | true =>
    rw [step_running hc hr]
    exact cycle_total (s := afterTurn s) h

/-- The host's turn is a `LoadWord` on a stopped core into a slot that does not exist (R51; log 7). -/
def LoadsAbsentSlot (s : State) : Prop :=
  s.active = false ∧ ∃ i w rest, s.host = .loadWord i w :: rest ∧ s.mem.slots ≤ i

theorem step_command_total {c : HostTurn} {rest : List HostTurn} (hh : s.host = c :: rest)
    (hc : c ≠ .wait) :
    (∃ t, step s = .next t) ∨ (step s = .fault .noSuchSlot ∧ LoadsAbsentSlot s) := by
  rw [step_command hh]
  cases c with
  | wait => exact absurd rfl hc
  | reset | setProgLen | run | readReg => exact .inl ⟨_, rfl⟩
  | execDirect w => exact .inl (hostExecDirect_total w _)
  | loadWord n w =>
    rcases hostLoadWord_cases n w (afterTurn s) with ⟨-, hs⟩ | ⟨-, -, hs⟩ | ⟨ha, hn, hs⟩
    · exact .inl ⟨_, hs⟩
    · exact .inl ⟨_, hs⟩
    · exact .inr ⟨hs, ha, n, w, rest, hh, hn⟩

/-- With the program in memory, a step has a next state but for a load into a slot that does not exist. -/
theorem step_next_or_loadsAbsentSlot (h : s.progLen.toNat ≤ s.mem.slots) :
    (∃ t, step s = .next t) ∨ (step s = .fault .noSuchSlot ∧ LoadsAbsentSlot s) := by
  cases hh : s.host with
  | nil => exact .inl (step_coreActs_total (.inl hh) h)
  | cons c rest =>
    by_cases hc : c = .wait
    · exact .inl (step_coreActs_total (.inr ⟨rest, hc ▸ hh⟩) h)
    · exact step_command_total hh hc

/-! ## A faulted core -/

theorem hostRun_ignored (h : s.active = true ∨ s.faultCode ≠ none) : hostRun s = s := by
  rcases hostRun_cases s with ⟨ha, hf, -⟩ | ⟨-, hs⟩
  · exact absurd h (not_ignored ha hf)
  · exact hs

theorem fetchesInstr_running (h : FetchesInstr s i) : running s = true := by
  obtain ⟨w, hw, -⟩ := h
  exact hw.runs

/-! ## The bound of the counter -/

theorem nextPc_lt {pc : Slot} {n : ProgLen} (hp : pc.toNat < n.toNat) (hn : n.toNat ≤ 4096) :
    (nextPc pc n).toNat < n.toNat := by
  rw [nextPc_toNat hp hn]
  exact Nat.mod_lt _ (Nat.zero_lt_of_lt hp)

/-- From a counter and a latch below PROG_LEN, an instruction with a legal target leaves the counter
there (R80, R201). -/
theorem exec_pc_lt (hp : s.pc.toNat < s.progLen.toNat) (hl : s.ipc.toNat < s.progLen.toNat)
    (hi : i.targetOk s.progLen = true) (he : exec i s = .next t) :
    t.progLen = s.progLen ∧ t.pc.toNat < t.progLen.toNat := by
  have hlen : t.progLen = s.progLen := (exec_controlKept he).progLen
  refine ⟨hlen, ?_⟩
  rw [hlen]
  obtain hpc | ⟨hpc, -⟩ | ⟨c, rfl⟩ := exec_pc he
  · rwa [hpc]
  · rwa [hpc]
  · exact of_decide_eq_true hi

end Sys2Proof.Machine

namespace Sys2Proof.Proofs

open Sys2Proof.Machine Sys2Proof.Safety

/-- Settles O5: the invariant puts the program in memory. -/
theorem stopsOnlyAtAbsentSlot : Obligations.StopsOnlyAtAbsentSlot := by
  intro s h
  obtain ⟨t, hs⟩ | ⟨hs, habsent⟩ := step_next_or_loadsAbsentSlot h.program.length <;> rw [hs]
  · exact ⟨nofun, nofun⟩
  · refine ⟨nofun, fun f hf => ?_⟩
    cases hf
    exact ⟨rfl, habsent⟩

/-- Settles O17: the fields decode exactly where no other item of R78 applies. -/
theorem jumpTargetIsOnlyDefect : Obligations.JumpTargetIsOnlyDefect := by
  intro w n
  change decode w n = .error .jumpTarget ↔
    resField w = 0 ∧ opField w = 2 ∧ condField w ≠ 3 ∧ bField w = 0 ∧ n.toNat ≤ (aField w).toNat
  rw [decode_eq_jumpTarget_iff, rejects_decodeFields]
  have hop : opField w = 2 ↔ (opField w).toNat = 2 := BitVec.toNat_inj.symm
  by_cases h : opField w = 2
  · rw [hop.1 h, badOperands_jmp]
    simp [h, and_assoc]
  · exact iff_of_false (fun ⟨_, hjmp, _⟩ => h (hop.2 hjmp)) fun ⟨_, hjmp, _⟩ => h hjmp

/-- Settles O19: of the effects of a step, a faulted core has only those that leave the core's registers,
and `Reset`. -/
theorem faultIsStickyUntilReset : Obligations.FaultIsStickyUntilReset := by
  intro s hf
  have hstop : running s = false := not_running (.inr hf)
  have hnot : running s ≠ true := Bool.eq_false_iff.1 hstop
  refine ⟨?_, fun t h hreset => ?_, fun rest hh => ⟨_, step_command hh, rfl, rfl⟩⟩
  · rintro (⟨rest, hh⟩ | ⟨w, rest, hh⟩ | hc)
    · rw [step_command hh, hostTurn, hostRun_ignored (s := afterTurn s) (.inr hf)]
      rfl
    · rw [step_command hh, hostTurn, hostExecDirect_ignored (s := afterTurn s) w (.inr hf)]
      rfl
    · exact step_stopped hc hstop
  · cases step_effect h with
    | idle | loadWord | setProgLen | readReg => exact ⟨rfl, rfl, rfl, rfl, rfl, rfl, rfl, rfl, rfl, rfl⟩
    | emptyProgram _ hr | pcOutOfRange _ hr => exact absurd hr hnot
    | decodeFault hw => exact absurd hw.runs hnot
    | skip hi | execute hi => exact absurd (fetchesInstr_running hi) hnot
    | reset hh => exact absurd hh (hreset _)
    | run _ _ hnone | directFault _ _ hnone | direct _ _ hnone => exact absurd hnone hf

/-- Settles O22: the counter wraps, jumps to a decoded target, goes to 0 or stays. -/
theorem pcStaysBelowProgLen : Obligations.PcStaysBelowProgLen := by
  intro s t hinv hp h hset
  have hnext : (nextPc s.pc s.progLen).toNat < s.progLen.toNat :=
    nextPc_lt hp (hinv.program.length.trans hinv.slots_le)
  cases step_effect h with
  | idle | emptyProgram | pcOutOfRange | decodeFault | loadWord | run | directFault | readReg =>
    exact ⟨rfl, hp⟩
  | skip => exact ⟨rfl, hnext⟩
  | execute hi _ he =>
    obtain ⟨w, -, hd⟩ := hi
    exact exec_pc_lt (s := atExec s) hnext hp (decode_ok hd).2 he
  | reset => exact ⟨rfl, Nat.zero_lt_of_lt hp⟩
  | setProgLen hh => exact absurd hh (hset _ _)
  | direct _ _ _ hd he =>
    obtain ⟨hlen, hpc⟩ := exec_pc_lt (s := directState s) hp hp (decode_ok hd).2 he
    exact ⟨hlen, hpc⟩

/-- Settles O43. -/
theorem executionNeverFaults : Obligations.ExecutionNeverFaults := exec_total

end Sys2Proof.Proofs
end

section
/-! Proofs of the statements of spec/70_reset_and_hazards.md: what `Reset` sets, and the power-on state with
its first `Run`. -/

namespace Sys2Proof.Machine

/-- A memory that nothing has written holds its power-on words (R231; log 3). -/
theorem Memory.word_unwritten {m : Memory} (h : m.cells = []) (i : Nat) :
    m.word i = Config.powerOnWord i := by
  rw [Memory.word, h]
  rfl

theorem Memory.read_unwritten {m : Memory} {i : Nat} (h : m.cells = []) (hi : i < m.slots) :
    m.read i = some (Config.powerOnWord i) := by
  rw [Memory.read_of_lt hi, Memory.word_unwritten h]

end Sys2Proof.Machine

namespace Sys2Proof.Proofs

open Sys2Proof.Machine

/-- Settles O1: the host's turn is the reset. -/
theorem resetSetsCoreStateOnly : Obligations.ResetSetsCoreStateOnly := fun _ _ hh => step_host hh

/-- Settles O2: the `Run` starts the stopped core (O6), whose first cycle finds no program (O16). -/
theorem powerOnStateAndFirstRun : Obligations.PowerOnStateAndFirstRun := by
  rintro slots q s rfl
  refine ⟨rfl, rfl, fun i hi => Memory.read_unwritten rfl hi, _,
    (runStartsStoppedCore _ [] rfl).1 rfl rfl, ?_⟩
  exact (cycleFaultsInPriorityOrder _ (.inl rfl) rfl rfl).1 rfl

end Sys2Proof.Proofs
end
